-- ==== Sys2Proof/Word.lean ====
section
/-! DEFINITION. The word types of the CORE: every one is a plain bit vector (R9, R10, R71). -/

namespace Sys2Proof

/-- An 8-bit value: a general register, a timer, a byte of memory, the immediate `kk` (R9, R71). -/
abbrev Byte := BitVec 8

/-- A 16-bit value: an opcode, the program counter, the index register, a stack slot (R9, R70). -/
abbrev Word := BitVec 16

/-- A 4-bit operand field: a register index `x` or `y`, the row count `n`, a key number (R71, R9). -/
abbrev Nibble := BitVec 4

/-- A 12-bit address field `nnn` (R71). -/
abbrev Addr := BitVec 12

end Sys2Proof
end

