-- ==== Sys2Proof/Syntax.lean ====
section
/-! DEFINITION. The instructions: one constructor per row of the opcode map (R78, R85), in its order, with the operand
fields of R71. The ignored fields (`y` of SHR and SHL, `nnn` of SYS; R82) are kept, so that a word and its instruction
determine each other. -/

namespace Sys2Proof

/-- The 35 instructions of R78. `x`, `y` are register indices, `kk` the immediate byte, `nnn` the address, `n` the size
nibble (R13, R71). -/
inductive Instr where
  /-- `CLS` (R220). -/
  | cls
  /-- `RET` (R130). -/
  | ret
  /-- `SYS addr` (R134). -/
  | sys (nnn : Addr)
  /-- `JP addr` (R131). -/
  | jp (nnn : Addr)
  /-- `CALL addr` (R132). -/
  | call (nnn : Addr)
  /-- `SE Vx, byte` (R150). -/
  | seVxByte (x : Nibble) (kk : Byte)
  /-- `SNE Vx, byte` (R151). -/
  | sneVxByte (x : Nibble) (kk : Byte)
  /-- `SE Vx, Vy` (R152). -/
  | seVxVy (x y : Nibble)
  /-- `LD Vx, byte` (R170). -/
  | ldVxByte (x : Nibble) (kk : Byte)
  /-- `ADD Vx, byte` (R171). -/
  | addVxByte (x : Nibble) (kk : Byte)
  /-- `LD Vx, Vy` (R172). -/
  | ldVxVy (x y : Nibble)
  /-- `OR Vx, Vy` (R173). -/
  | or (x y : Nibble)
  /-- `AND Vx, Vy` (R174). -/
  | and (x y : Nibble)
  /-- `XOR Vx, Vy` (R175). -/
  | xor (x y : Nibble)
  /-- `ADD Vx, Vy` (R176). -/
  | addVxVy (x y : Nibble)
  /-- `SUB Vx, Vy` (R177). -/
  | sub (x y : Nibble)
  /-- `SHR Vx`; `y` is decoded and ignored (R178). -/
  | shr (x y : Nibble)
  /-- `SUBN Vx, Vy` (R179). -/
  | subn (x y : Nibble)
  /-- `SHL Vx`; `y` is decoded and ignored (R180). -/
  | shl (x y : Nibble)
  /-- `SNE Vx, Vy` (R153). -/
  | sneVxVy (x y : Nibble)
  /-- `LD I, addr` (R200). -/
  | ldIAddr (nnn : Addr)
  /-- `JP V0, addr` (R133). -/
  | jpV0Addr (nnn : Addr)
  /-- `RND Vx, byte` (R181). -/
  | rnd (x : Nibble) (kk : Byte)
  /-- `DRW Vx, Vy, n` (R221). -/
  | drw (x y n : Nibble)
  /-- `SKP Vx` (R154). -/
  | skp (x : Nibble)
  /-- `SKNP Vx` (R155). -/
  | sknp (x : Nibble)
  /-- `LD Vx, DT` (R222). -/
  | ldVxDt (x : Nibble)
  /-- `LD Vx, K` (R223). -/
  | ldVxK (x : Nibble)
  /-- `LD DT, Vx` (R225). -/
  | ldDtVx (x : Nibble)
  /-- `LD ST, Vx` (R226). -/
  | ldStVx (x : Nibble)
  /-- `ADD I, Vx` (R201). -/
  | addIVx (x : Nibble)
  /-- `LD F, Vx` (R202). -/
  | ldFVx (x : Nibble)
  /-- `LD B, Vx` (R203). -/
  | ldBVx (x : Nibble)
  /-- `LD [I], Vx` (R204). -/
  | ldMemIVx (x : Nibble)
  /-- `LD Vx, [I]` (R205). -/
  | ldVxMemI (x : Nibble)
deriving DecidableEq, Repr

/-- The decoder's tags: the 35 instruction kinds and `invalid` (R85). -/
inductive Tag where
  | cls | ret | sys | jp | call
  | seVxByte | sneVxByte | seVxVy
  | ldVxByte | addVxByte
  | ldVxVy | or | and | xor | addVxVy | sub | shr | subn | shl
  | sneVxVy | ldIAddr | jpV0Addr | rnd | drw
  | skp | sknp
  | ldVxDt | ldVxK | ldDtVx | ldStVx | addIVx | ldFVx | ldBVx | ldMemIVx | ldVxMemI
  | invalid
deriving DecidableEq, Repr

/-- The tag of an instruction (R85). -/
def Instr.tag : Instr → Tag
  | .cls => .cls
  | .ret => .ret
  | .sys _ => .sys
  | .jp _ => .jp
  | .call _ => .call
  | .seVxByte _ _ => .seVxByte
  | .sneVxByte _ _ => .sneVxByte
  | .seVxVy _ _ => .seVxVy
  | .ldVxByte _ _ => .ldVxByte
  | .addVxByte _ _ => .addVxByte
  | .ldVxVy _ _ => .ldVxVy
  | .or _ _ => .or
  | .and _ _ => .and
  | .xor _ _ => .xor
  | .addVxVy _ _ => .addVxVy
  | .sub _ _ => .sub
  | .shr _ _ => .shr
  | .subn _ _ => .subn
  | .shl _ _ => .shl
  | .sneVxVy _ _ => .sneVxVy
  | .ldIAddr _ => .ldIAddr
  | .jpV0Addr _ => .jpV0Addr
  | .rnd _ _ => .rnd
  | .drw _ _ _ => .drw
  | .skp _ => .skp
  | .sknp _ => .sknp
  | .ldVxDt _ => .ldVxDt
  | .ldVxK _ => .ldVxK
  | .ldDtVx _ => .ldDtVx
  | .ldStVx _ => .ldStVx
  | .addIVx _ => .addIVx
  | .ldFVx _ => .ldFVx
  | .ldBVx _ => .ldBVx
  | .ldMemIVx _ => .ldMemIVx
  | .ldVxMemI _ => .ldVxMemI

end Sys2Proof
end

