-- ==== Sys2Proof/WellFormed.lean ====
section
/-! DEFINITION. Which terms of `Instr` an opcode can hold. The operand types leave one thing to check: SYS decodes every
`0nnn` but the words of CLS and RET (R79). -/

namespace Sys2Proof

/-- An `nnn` that belongs to SYS: not 0x0E0 (CLS) and not 0x0EE (RET) (R79). -/
def sysAddrOk (nnn : Addr) : Bool :=
  nnn != 0x0E0#12 && nnn != 0x0EE#12

/-- The instruction stands for a word of the opcode map (R78, R79). -/
def Instr.wf : Instr → Bool
  | .sys nnn => sysAddrOk nnn
  | .cls | .ret | .jp _ | .call _ | .seVxByte _ _ | .sneVxByte _ _ | .seVxVy _ _ | .ldVxByte _ _ | .addVxByte _ _
  | .ldVxVy _ _ | .or _ _ | .and _ _ | .xor _ _ | .addVxVy _ _ | .sub _ _ | .shr _ _ | .subn _ _ | .shl _ _
  | .sneVxVy _ _ | .ldIAddr _ | .jpV0Addr _ | .rnd _ _ | .drw _ _ _ | .skp _ | .sknp _ | .ldVxDt _ | .ldVxK _
  | .ldDtVx _ | .ldStVx _ | .addIVx _ | .ldFVx _ | .ldBVx _ | .ldMemIVx _ | .ldVxMemI _ => true

end Sys2Proof
end

