-- ==== Sys2Proof/Decode.lean ====
section
/-! DEFINITION. The decoder (R72 to R85), total on every word and every list of bytes, and after it the encoder. -/

namespace Sys2Proof

/-- One row of the opcode map: an opcode matches when `op & mask = pattern` (R73, R78). -/
structure Row where
  tag : Tag
  mask : Word
  pattern : Word
deriving DecidableEq, Repr

/-- Rows 1 to 10 of R78. -/
def opcodeRows1 : List Row :=
  [⟨.cls, 0xFFFF#16, 0x00E0#16⟩, ⟨.ret, 0xFFFF#16, 0x00EE#16⟩, ⟨.sys, 0xF000#16, 0x0000#16⟩,
   ⟨.jp, 0xF000#16, 0x1000#16⟩, ⟨.call, 0xF000#16, 0x2000#16⟩, ⟨.seVxByte, 0xF000#16, 0x3000#16⟩,
   ⟨.sneVxByte, 0xF000#16, 0x4000#16⟩, ⟨.seVxVy, 0xF00F#16, 0x5000#16⟩, ⟨.ldVxByte, 0xF000#16, 0x6000#16⟩,
   ⟨.addVxByte, 0xF000#16, 0x7000#16⟩]

/-- Rows 11 to 20 of R78. -/
def opcodeRows2 : List Row :=
  [⟨.ldVxVy, 0xF00F#16, 0x8000#16⟩, ⟨.or, 0xF00F#16, 0x8001#16⟩, ⟨.and, 0xF00F#16, 0x8002#16⟩,
   ⟨.xor, 0xF00F#16, 0x8003#16⟩, ⟨.addVxVy, 0xF00F#16, 0x8004#16⟩, ⟨.sub, 0xF00F#16, 0x8005#16⟩,
   ⟨.shr, 0xF00F#16, 0x8006#16⟩, ⟨.subn, 0xF00F#16, 0x8007#16⟩, ⟨.shl, 0xF00F#16, 0x800E#16⟩,
   ⟨.sneVxVy, 0xF00F#16, 0x9000#16⟩]

/-- Rows 21 to 35 of R78. -/
def opcodeRows3 : List Row :=
  [⟨.ldIAddr, 0xF000#16, 0xA000#16⟩, ⟨.jpV0Addr, 0xF000#16, 0xB000#16⟩, ⟨.rnd, 0xF000#16, 0xC000#16⟩,
   ⟨.drw, 0xF000#16, 0xD000#16⟩, ⟨.skp, 0xF0FF#16, 0xE09E#16⟩, ⟨.sknp, 0xF0FF#16, 0xE0A1#16⟩,
   ⟨.ldVxDt, 0xF0FF#16, 0xF007#16⟩, ⟨.ldVxK, 0xF0FF#16, 0xF00A#16⟩, ⟨.ldDtVx, 0xF0FF#16, 0xF015#16⟩,
   ⟨.ldStVx, 0xF0FF#16, 0xF018#16⟩, ⟨.addIVx, 0xF0FF#16, 0xF01E#16⟩, ⟨.ldFVx, 0xF0FF#16, 0xF029#16⟩,
   ⟨.ldBVx, 0xF0FF#16, 0xF033#16⟩, ⟨.ldMemIVx, 0xF0FF#16, 0xF055#16⟩, ⟨.ldVxMemI, 0xF0FF#16, 0xF065#16⟩]

/-- The opcode map in decode order (R78). -/
def opcodeMap : List Row := opcodeRows1 ++ opcodeRows2 ++ opcodeRows3

/-- The opcode matches the row (R73). -/
def Row.hits (r : Row) (op : Word) : Bool := op &&& r.mask == r.pattern

/-- First match over the rows (R73) with the payload `op & ~mask` (R74); no match gives `invalid` with payload 0. -/
def decodeTagIn (rows : List Row) (op : Word) : Tag × Word :=
  match rows.find? (fun r => r.hits op) with
  | some r => (r.tag, op &&& ~~~r.mask)
  | none => (.invalid, 0#16)

/-- The decoder of R72 and R73: tag and payload. -/
def decodeTag (op : Word) : Tag × Word := decodeTagIn opcodeMap op

/-- `x` = bits 11:8 (R71). -/
def fieldX (p : Word) : Nibble := p.extractLsb' 8 4

/-- `y` = bits 7:4 (R71). -/
def fieldY (p : Word) : Nibble := p.extractLsb' 4 4

/-- `n` = bits 3:0 (R71). -/
def fieldN (p : Word) : Nibble := p.extractLsb' 0 4

/-- `kk` = bits 7:0 (R71). -/
def fieldKK (p : Word) : Byte := p.extractLsb' 0 8

/-- `nnn` = bits 11:0 (R71). -/
def fieldNNN (p : Word) : Addr := p.extractLsb' 0 12

/-- The instruction of a tag and a payload: its named fields extracted at the positions of R71 (R75). -/
def Instr.ofTag (t : Tag) (p : Word) : Option Instr :=
  match t with
  | .cls => some .cls
  | .ret => some .ret
  | .sys => some (.sys (fieldNNN p))
  | .jp => some (.jp (fieldNNN p))
  | .call => some (.call (fieldNNN p))
  | .seVxByte => some (.seVxByte (fieldX p) (fieldKK p))
  | .sneVxByte => some (.sneVxByte (fieldX p) (fieldKK p))
  | .seVxVy => some (.seVxVy (fieldX p) (fieldY p))
  | .ldVxByte => some (.ldVxByte (fieldX p) (fieldKK p))
  | .addVxByte => some (.addVxByte (fieldX p) (fieldKK p))
  | .ldVxVy => some (.ldVxVy (fieldX p) (fieldY p))
  | .or => some (.or (fieldX p) (fieldY p))
  | .and => some (.and (fieldX p) (fieldY p))
  | .xor => some (.xor (fieldX p) (fieldY p))
  | .addVxVy => some (.addVxVy (fieldX p) (fieldY p))
  | .sub => some (.sub (fieldX p) (fieldY p))
  | .shr => some (.shr (fieldX p) (fieldY p))
  | .subn => some (.subn (fieldX p) (fieldY p))
  | .shl => some (.shl (fieldX p) (fieldY p))
  | .sneVxVy => some (.sneVxVy (fieldX p) (fieldY p))
  | .ldIAddr => some (.ldIAddr (fieldNNN p))
  | .jpV0Addr => some (.jpV0Addr (fieldNNN p))
  | .rnd => some (.rnd (fieldX p) (fieldKK p))
  | .drw => some (.drw (fieldX p) (fieldY p) (fieldN p))
  | .skp => some (.skp (fieldX p))
  | .sknp => some (.sknp (fieldX p))
  | .ldVxDt => some (.ldVxDt (fieldX p))
  | .ldVxK => some (.ldVxK (fieldX p))
  | .ldDtVx => some (.ldDtVx (fieldX p))
  | .ldStVx => some (.ldStVx (fieldX p))
  | .addIVx => some (.addIVx (fieldX p))
  | .ldFVx => some (.ldFVx (fieldX p))
  | .ldBVx => some (.ldBVx (fieldX p))
  | .ldMemIVx => some (.ldMemIVx (fieldX p))
  | .ldVxMemI => some (.ldVxMemI (fieldX p))
  | .invalid => none

/-- Why bytes are no instruction: `invalid`, the word matches no row (R81); `truncated`, fewer than two bytes. -/
inductive Reject where
  | invalid
  | truncated
deriving DecidableEq, Repr

/-- What the decoder answers. -/
inductive Decoded where
  | instr (i : Instr)
  | rejected (r : Reject)
deriving DecidableEq, Repr

/-- An opcode to its instruction, or to INVALID (R72 to R76). -/
def decodeWord (op : Word) : Decoded :=
  match Instr.ofTag (decodeTag op).1 (decodeTag op).2 with
  | some i => .instr i
  | none => .rejected .invalid

/-- The opcode of two bytes: the byte at the lower address is the high byte (R53). -/
def wordOfBytes (hi lo : Byte) : Word := hi ++ lo

/-- The high byte of an opcode, stored at the lower address (R53). -/
def hiByte (op : Word) : Byte := op.extractLsb' 8 8

/-- The low byte of an opcode, stored at the higher address (R53). -/
def loByte (op : Word) : Byte := op.extractLsb' 0 8

/-- The first instruction of a list of bytes: every instruction is two bytes (R70, R83). -/
def decode : List Byte → Decoded
  | hi :: lo :: _ => decodeWord (wordOfBytes hi lo)
  | _ => .rejected .truncated

/-- The opcode of an instruction, from the pattern column of R78. -/
def encode : Instr → Word
  | .cls => 0x00E0#16
  | .ret => 0x00EE#16
  | .sys nnn => 0x0#4 ++ nnn
  | .jp nnn => 0x1#4 ++ nnn
  | .call nnn => 0x2#4 ++ nnn
  | .seVxByte x kk => 0x3#4 ++ x ++ kk
  | .sneVxByte x kk => 0x4#4 ++ x ++ kk
  | .seVxVy x y => 0x5#4 ++ x ++ y ++ 0x0#4
  | .ldVxByte x kk => 0x6#4 ++ x ++ kk
  | .addVxByte x kk => 0x7#4 ++ x ++ kk
  | .ldVxVy x y => 0x8#4 ++ x ++ y ++ 0x0#4
  | .or x y => 0x8#4 ++ x ++ y ++ 0x1#4
  | .and x y => 0x8#4 ++ x ++ y ++ 0x2#4
  | .xor x y => 0x8#4 ++ x ++ y ++ 0x3#4
  | .addVxVy x y => 0x8#4 ++ x ++ y ++ 0x4#4
  | .sub x y => 0x8#4 ++ x ++ y ++ 0x5#4
  | .shr x y => 0x8#4 ++ x ++ y ++ 0x6#4
  | .subn x y => 0x8#4 ++ x ++ y ++ 0x7#4
  | .shl x y => 0x8#4 ++ x ++ y ++ 0xE#4
  | .sneVxVy x y => 0x9#4 ++ x ++ y ++ 0x0#4
  | .ldIAddr nnn => 0xA#4 ++ nnn
  | .jpV0Addr nnn => 0xB#4 ++ nnn
  | .rnd x kk => 0xC#4 ++ x ++ kk
  | .drw x y n => 0xD#4 ++ x ++ y ++ n
  | .skp x => 0xE#4 ++ x ++ 0x9E#8
  | .sknp x => 0xE#4 ++ x ++ 0xA1#8
  | .ldVxDt x => 0xF#4 ++ x ++ 0x07#8
  | .ldVxK x => 0xF#4 ++ x ++ 0x0A#8
  | .ldDtVx x => 0xF#4 ++ x ++ 0x15#8
  | .ldStVx x => 0xF#4 ++ x ++ 0x18#8
  | .addIVx x => 0xF#4 ++ x ++ 0x1E#8
  | .ldFVx x => 0xF#4 ++ x ++ 0x29#8
  | .ldBVx x => 0xF#4 ++ x ++ 0x33#8
  | .ldMemIVx x => 0xF#4 ++ x ++ 0x55#8
  | .ldVxMemI x => 0xF#4 ++ x ++ 0x65#8

/-- The two bytes of an instruction as memory holds them, the lower address first (R53). -/
def encodeBytes (i : Instr) : List Byte := [hiByte (encode i), loByte (encode i)]

/-- The opcode whose bits are the low `nbits` bits of `w`, every bit above them 0: the table numbers bit 0 as the least
significant bit of the one 16-bit word (R10, R70). -/
def tableWord (nbits w : Nat) : Word := BitVec.ofNat 16 (w % 2 ^ nbits)

/-- The instruction the decoder reads from the bytes of the table's word `w`. -/
def decodeTableWord (nbits w : Nat) : Option Instr :=
  match decode [hiByte (tableWord nbits w), loByte (tableWord nbits w)] with
  | .instr i => some i
  | .rejected _ => none

end Sys2Proof
end

