-- ==== Sys2Proof/Config.lean ====
section
/-! DEFINITION. The fixed parameters of the CORE (R9), its open parameters, and the free values: what the outside
answers and what the spec leaves unspecified. An opaque constant has no body here, so nothing can be proved of its value. -/

namespace Sys2Proof.Config

/-- `MEM_SIZE` (R9, R50). -/
def memSize : Nat := 4096

/-- `LOAD_BASE` (R9, R57). -/
def loadBase : Nat := 0x200

/-- `ENTRY_PC` (R9, the spec's decision D5; log 10). -/
def entryPc : Word := 0x200#16

/-- `STACK_DEPTH` (R9). -/
def stackDepth : Nat := 16

/-- The two values of the open parameter `INVALID_POLICY` (R9, R254, D4; log 7). -/
inductive InvalidPolicy where
  | fatal
  | skip
deriving DecidableEq, Repr

/-- One move of the machine (R114, R115): the CORE takes a step, or the host delivers an event. -/
inductive HostMove where
  | step
  | tick
  | keyPress (k : Nibble)
deriving DecidableEq, Repr, Inhabited

/-- FREE VALUE (log 5). The move at draw number `n` where no schedule fixes it: the choice between a step and a host event is
free, every interleaving is admitted, and no fairness is assumed (R115, R288, D29). -/
opaque hostMove (n : Nat) : HostMove

/-- `FONT_ADDR` (R9, R202, D17; log 8): open, a total function from a digit value to an address below 4096. -/
opaque fontAddr : Byte → Addr

/-- `FONT_IMAGE` (R9, R281, D17; log 9): open, the (address, byte) pairs a launch writes before the program. -/
opaque fontImage : List (Addr × Byte)

/-- FREE VALUE (log 3). The answer of `rng.byte()` to draw number `n` (R114, R118, R181). -/
opaque rngByte (n : Nat) : Byte

/-- FREE VALUE (log 3). The answer of `input.isDown(k)` to draw number `n` (R114, R118, R265). -/
opaque keyDown (n : Nat) (k : Nibble) : Bool

/-- FREE VALUE (log 3). The answer of `display.blit(cx, cy, rows)` to draw number `n` (R114, R118, R264). -/
opaque blitCollided (n : Nat) (cx cy : Byte) (rows : List Byte) : Bool

/-- FREE VALUE (log 2). Register `x` as a Faulted machine shows it: unspecified (R116, R258, D25). -/
opaque faultedV (n : Nat) (x : Fin 16) : Byte

/-- FREE VALUE (log 2). The index register as a Faulted machine shows it (D25). -/
opaque faultedI (n : Nat) : Word

/-- FREE VALUE (log 2). The program counter as a Faulted machine shows it (D25). -/
opaque faultedPc (n : Nat) : Word

/-- FREE VALUE (log 2). The stack pointer as a Faulted machine shows it (D25). -/
opaque faultedSP (n : Nat) : Fin 17

/-- FREE VALUE (log 2). Stack slot `j` as a Faulted machine shows it (D25). -/
opaque faultedSlot (n : Nat) (j : Fin 16) : Word

/-- FREE VALUE (log 2). The delay timer as a Faulted machine shows it (D25). -/
opaque faultedDT (n : Nat) : Byte

/-- FREE VALUE (log 2). The sound timer as a Faulted machine shows it (D25). -/
opaque faultedST (n : Nat) : Byte

/-- FREE VALUE (log 2). The byte of memory at address `a` as a Faulted machine shows it (D25). -/
opaque faultedMem (n : Nat) (a : Nat) : Byte

end Sys2Proof.Config
end

