-- ==== Sys2Proof/Machine/State.lean ====
section
/-! DEFINITION. The state of the CORE (10_state.md) as plain data, the outcomes a step can end in, and construction. -/

namespace Sys2Proof.Machine

/-- A fault kind with the information it records (R250). -/
inductive FaultKind where
  /-- Code 1. An access to an address of 4096 or more; records the address (R251). -/
  | addressFault (addr : Nat)
  /-- Code 2. CALL with a full stack; records SP (R252). -/
  | stackOverflow (sp : Nat)
  /-- Code 3. RET with an empty stack; records SP (R252). -/
  | stackUnderflow (sp : Nat)
  /-- Code 4. SYS executed (R253). -/
  | unsupportedOpcode
  /-- Code 5. An INVALID word executed under the policy `fatal` (R254). -/
  | decodeMiss
  /-- Code 6. SKP or SKNP with `V[x] > 0xF`; records the key value (R255). -/
  | keyRangeFault (key : Byte)
  /-- Code 7. A register index outside 0x0 to 0xF; no program raises it, every index is a `Nibble` (R256; log 12). -/
  | registerIndexFault (index : Nat)
deriving DecidableEq, Repr

/-- The numeric code of a fault kind (R250). -/
def FaultKind.code : FaultKind → Nat
  | .addressFault _ => 1
  | .stackOverflow _ => 2
  | .stackUnderflow _ => 3
  | .unsupportedOpcode => 4
  | .decodeMiss => 5
  | .keyRangeFault _ => 6
  | .registerIndexFault _ => 7

/-- The information a fault records beyond its opcode (R250). -/
def FaultKind.info : FaultKind → Option Nat
  | .addressFault a => some a
  | .stackOverflow sp => some sp
  | .stackUnderflow sp => some sp
  | .unsupportedOpcode => none
  | .decodeMiss => none
  | .keyRangeFault k => some k.toNat
  | .registerIndexFault n => some n

/-- The fault record (R258): code and info in `kind`, the address of the faulting instruction, its opcode (`none` for a
fault of the fetch itself). -/
structure FaultRecord where
  kind : FaultKind
  pc : Word
  opcode : Option Word
deriving DecidableEq, Repr

/-- The control state machine (R31, R100). -/
inductive Fsm where
  | ready
  | waitKey (x : Nibble)
  | faulted (r : FaultRecord)
deriving DecidableEq, Repr

/-- What the CORE sends out (R114): the two display requests, and the diagnostic of a skipped INVALID word (R254, R269). -/
inductive Request where
  | clear
  | blit (cx cy : Byte) (rows : List Byte)
  | diagnostic (pc opcode : Word)
deriving DecidableEq, Repr

/-- Memory as (address, byte) pairs in canonical form: addresses strictly rising, all below 4096, no entry that equals
what an unlisted address reads as. -/
abbrev Memory := List Host.Cell

/-- The state tuple of 10_state.md, and after it the model's own fields `host`, `draws` and `sent` (logs 5, 4, 11). -/
structure State where
  /-- V0 to VF (R20). -/
  V : Vector Byte 16
  /-- The index register (R24). -/
  I : Word
  /-- The program counter (R25). -/
  pc : Word
  /-- How many stack slots are occupied, 0 to 16 (R26). -/
  SP : Fin 17
  /-- The call stack (R27). -/
  stack : Vector Word 16
  /-- The delay timer (R28). -/
  DT : Byte
  /-- The sound timer (R29). -/
  ST : Byte
  /-- The memory (R30, R50). -/
  mem : Memory
  /-- The control state (R31). -/
  fsm : Fsm
  /-- The next moves, as far as they are fixed, oldest first; beyond them every move is free (R115, D29; log 5). -/
  host : List Config.HostMove
  /-- How many free values have been taken (R115, R118; log 4). -/
  draws : Nat
  /-- The requests sent, oldest first (R114; log 11). -/
  sent : List Request
deriving DecidableEq, Repr

/-- Why a step ends in a fault. -/
inductive Fault where
  /-- Raised by `step` alone, in the control state Faulted(r): there is no step there (R105), and the record is reported
  (R114, R258). Safe: the machine stops where the spec says that it stops (log 1). -/
  | halted (r : FaultRecord)
deriving DecidableEq, Repr

/-- Why a step is refused. -/
inductive Refusal where
  /-- Raised by an arm of `exec` whose instruction has no meaning in this model. No arm raises it. Safe: nothing is
  claimed about such an instruction. -/
  | notModelled (mnemonic : String)
deriving DecidableEq, Repr

/-- What a meaning and a step answer. -/
abbrev Result := Host.Outcome State Fault Refusal

/-- Construction, the CORE's only reset (R280): every element at its value of R35, memory 0x00 everywhere. The launch that
sets pc to 0x200 is `State.launch` (R281). -/
def State.reset : State where
  V := Vector.replicate 16 0#8
  I := 0#16
  pc := 0#16
  SP := 0
  stack := Vector.replicate 16 0#16
  DT := 0#8
  ST := 0#8
  mem := []
  fsm := .ready
  host := []
  draws := 0
  sent := []

end Sys2Proof.Machine
end

