-- ==== Sys2Proof/Machine/Ops.lean ====
section
/-! DEFINITION. The named operations over memory, registers, pc and stack, and taking a fault. -/

namespace Sys2Proof.Machine

/-! ### Memory (20_memory.md) -/

/-- What an address that is not listed reads as: memory is zero at construction (R35). -/
def Memory.unlisted : Byte := 0#8

/-- The byte at an address (R50). -/
def Memory.byte : Memory → Nat → Byte
  | [], _ => Memory.unlisted
  | (a', b) :: rest, a => if a = a' then b else Memory.byte rest a

/-- The memory with one byte changed, in canonical form. -/
def Memory.set : Memory → Nat → Byte → Memory
  | [], a, b => if b = Memory.unlisted then [] else [(a, b)]
  | (a', b') :: rest, a, b =>
    if a < a' then
      if b = Memory.unlisted then (a', b') :: rest else (a, b) :: (a', b') :: rest
    else if a = a' then
      if b = Memory.unlisted then rest else (a, b) :: rest
    else (a', b') :: Memory.set rest a b

/-- The canonical form, for a memory whose addresses begin at `lo` or above. -/
def Memory.wfFrom (lo : Nat) : Memory → Bool
  | [] => true
  | (a, b) :: rest => decide (lo ≤ a) && decide (a < Config.memSize) && (b != Memory.unlisted) && Memory.wfFrom (a + 1) rest

/-- The canonical form: addresses strictly rising and below 4096, no listed byte equal to the unlisted one. -/
def Memory.wf (m : Memory) : Bool := Memory.wfFrom 0 m

/-- The memory that holds `f a` at each of the `n` addresses from `lo`. -/
def Memory.ofFnFrom (f : Nat → Byte) (lo : Nat) : Nat → Memory
  | 0 => []
  | n + 1 => if f lo = Memory.unlisted then Memory.ofFnFrom f (lo + 1) n else (lo, f lo) :: Memory.ofFnFrom f (lo + 1) n

/-- The memory that holds `f a` at every address `a` (R50). -/
def Memory.ofFn (f : Nat → Byte) : Memory := Memory.ofFnFrom f 0 Config.memSize

/-- `MemRead(addr, 1)` (R51); the error is the address that faults. -/
def memRead (m : Memory) (a : Nat) : Except Nat Byte :=
  if a < Config.memSize then .ok (Memory.byte m a) else .error a

/-- `MemWrite(addr, 1, v)` (R52); the error is the address that faults. -/
def memWrite (m : Memory) (a : Nat) (v : Byte) : Except Nat Memory :=
  if a < Config.memSize then .ok (Memory.set m a v) else .error a

/-- `n` byte reads at `b`, `b + 1`, … in rising order, on unbounded addresses (R54, R66); the first that faults is the
error (R260). -/
def readBytes (m : Memory) (b : Nat) : Nat → Except Nat (List Byte)
  | 0 => .ok []
  | n + 1 =>
    match memRead m b with
    | .error a => .error a
    | .ok v =>
      match readBytes m (b + 1) n with
      | .error a => .error a
      | .ok vs => .ok (v :: vs)

/-- Byte writes at `b`, `b + 1`, … in rising order, on unbounded addresses (R54, R66); the first that faults is the
error (R260). -/
def writeBytes (m : Memory) (b : Nat) : List Byte → Except Nat Memory
  | [] => .ok m
  | v :: vs =>
    match memWrite m b v with
    | .error a => .error a
    | .ok m' => writeBytes m' (b + 1) vs

/-- `Fetch(pc)`: two byte reads, high byte first (R53). -/
def fetch (m : Memory) (pc : Word) : Except Nat Word :=
  match memRead m pc.toNat with
  | .error a => .error a
  | .ok hi =>
    match memRead m (pc.toNat + 1) with
    | .error a => .error a
    | .ok lo => .ok (wordOfBytes hi lo)

/-! ### Registers (10_state.md) -/

/-- A read of `V[x]` (R12, R20). -/
def State.reg (s : State) (x : Nibble) : Byte := s.V[x.toNat]'x.isLt

/-- `V[x] <- v` (R12, R20). -/
def State.setReg (x : Nibble) (v : Byte) (s : State) : State := { s with V := s.V.set x.toNat v x.isLt }

/-- V0 to V[x], V0 first (R204). -/
def State.regsUpTo (s : State) (x : Nibble) : List Byte := s.V.toList.take (x.toNat + 1)

/-- The register file with the registers from number `k` on written one after another (R205). -/
def setRegsAt (k : Nat) : List Byte → Vector Byte 16 → Vector Byte 16
  | [], v => v
  | b :: bs, v => setRegsAt (k + 1) bs (v.setIfInBounds k b)

/-- `V[0] <- b0`, `V[1] <- b1`, … for the bytes of a list (R205). -/
def State.setRegsFrom0 (bs : List Byte) (s : State) : State := { s with V := setRegsAt 0 bs s.V }

/-! ### pc and stack (40_cycle.md) -/

/-- The advance before execute (R101, R102). -/
def State.advance (s : State) : State := { s with pc := s.pc + 2#16 }

/-- `Skip()` (R107). -/
def State.skip (s : State) : State := { s with pc := s.pc + 2#16 }

/-- `Skip()` under a condition (42_skips.md). -/
def State.skipIf (c : Bool) (s : State) : State := { s with pc := if c then s.skip.pc else s.pc }

/-- `Push(v)` (R108): `none` on a full stack, before any write. -/
def State.push (v : Word) (s : State) : Option State :=
  if h : s.SP.val < Config.stackDepth then
    some { s with
      stack := s.stack.set s.SP.val v h
      SP := ⟨s.SP.val + 1, Nat.succ_lt_succ h⟩ }
  else none

/-- `Pop()` (R109): `none` on an empty stack; else the popped value, whose slot keeps it. -/
def State.pop (s : State) : Option (Word × State) :=
  if h : s.SP.val = 0 then none
  else some (s.stack[s.SP.val - 1]'(by omega), { s with SP := ⟨s.SP.val - 1, by omega⟩ })

/-! ### The outside -/

/-- One free value taken (R118; log 4). -/
def State.drawn (s : State) : State := { s with draws := s.draws + 1 }

/-- A request sent to the outside (R114; log 11). -/
def State.send (r : Request) (s : State) : State := { s with sent := s.sent ++ [r] }

/-! ### Taking a fault (60_exceptions.md) -/

/-- Taking a fault (R116, R258): the machine enters Faulted(r). The architectural state it shows is unspecified (D25), so
every element of it is a free value (log 2). There is no return (R259). -/
def State.takeFault (r : FaultRecord) (s : State) : State :=
  { s with
    V := Vector.ofFn (Config.faultedV s.draws)
    I := Config.faultedI s.draws
    pc := Config.faultedPc s.draws
    SP := Config.faultedSP s.draws
    stack := Vector.ofFn (Config.faultedSlot s.draws)
    DT := Config.faultedDT s.draws
    ST := Config.faultedST s.draws
    mem := Memory.ofFn (Config.faultedMem s.draws)
    fsm := .faulted r
    draws := s.draws + 1 }

/-- The address of the instruction being executed: pc has advanced by 2 (R102) and nothing has written it since. -/
def State.instrAddr (s : State) : Word := s.pc - 2#16

/-- `raise F(info)` during the execution of `i` (R12, R116): the record names the instruction's address and opcode (R258). -/
def State.raise (k : FaultKind) (i : Instr) (s : State) : State :=
  s.takeFault { kind := k, pc := s.instrAddr, opcode := some (encode i) }

/-- A fault of the fetch at `s.pc`, before the advance: no opcode (R53, R258). -/
def State.raiseFetch (addr : Nat) (s : State) : State :=
  s.takeFault { kind := .addressFault addr, pc := s.pc, opcode := none }

end Sys2Proof.Machine
end

