-- ==== Sys2Proof/Machine/Operands.lean ====
section
/-! DEFINITION. The operand forms: what an instruction reads before it writes anything (R113). -/

namespace Sys2Proof.Machine

/-- The second input `b` of the ALU: a register or the immediate byte (R110). -/
inductive Operand where
  | reg (y : Nibble)
  | imm (kk : Byte)
deriving DecidableEq, Repr

/-- The value of an operand (R110, R113). -/
def Operand.value (s : State) : Operand → Byte
  | .reg y => s.reg y
  | .imm kk => kk

/-- `zext_16` of an address field: a pc or index value (R11, R71). -/
def addrWord (nnn : Addr) : Word := nnn.setWidth 16

/-- `zext_16` of a byte (R11). -/
def byteWord (b : Byte) : Word := b.setWidth 16

/-- A key number as a register value (R224). -/
def keyByte (k : Nibble) : Byte := k.setWidth 8

/-- A key number read from a register: none above 0xF (R154, R155, R255). -/
def keyOf (b : Byte) : Option Nibble := if b.toNat ≤ 0xF then some (b.setWidth 4) else none

/-- The effective address of the data accesses: I as an unbounded natural (R66). -/
def State.base (s : State) : Nat := s.I.toNat

/-- The three decimal digits of a byte, hundreds first (R203, D16). -/
def bcdDigits (v : Byte) : List Byte :=
  [BitVec.ofNat 8 (v.toNat / 100), BitVec.ofNat 8 (v.toNat / 10 % 10), BitVec.ofNat 8 (v.toNat % 10)]

end Sys2Proof.Machine
end

