-- ==== Sys2Proof/Machine/Flags.lean ====
section
/-! DEFINITION. The ALU with its flag (R110, R111) and the write-back around it (R112). -/

namespace Sys2Proof.Machine

/-- The ALU operations of R111. -/
inductive AluOp where
  | pass | addnf | or | and | xor | add | sub | subn | shr | shl
deriving DecidableEq, Repr

/-- The ALU's outputs (R110): the result, and the flag where the flag write enable is 1. -/
structure AluOut where
  r : Byte
  f : Option Bool
deriving DecidableEq, Repr

/-- The ALU of R111: `a` is `V[x]`, `b` is `V[y]` or `kk`. -/
def alu (op : AluOp) (a b : Byte) : AluOut :=
  match op with
  | .pass => ⟨b, none⟩
  | .addnf => ⟨a + b, none⟩
  | .or => ⟨a ||| b, none⟩
  | .and => ⟨a &&& b, none⟩
  | .xor => ⟨a ^^^ b, none⟩
  | .add => ⟨a + b, some (decide (a.toNat + b.toNat > 255))⟩
  | .sub => ⟨a - b, some (decide (a.toNat > b.toNat))⟩
  | .subn => ⟨b - a, some (decide (b.toNat > a.toNat))⟩
  | .shr => ⟨a >>> 1, some (a.getLsbD 0)⟩
  | .shl => ⟨a <<< 1, some (a.getLsbD 7)⟩

/-- A flag as VF holds it: exactly 0 or 1 (R111). -/
def flagByte (f : Bool) : Byte := if f then 1#8 else 0#8

/-- VF, the flag register (R9, R21). -/
def flagReg : Nibble := 0xF#4

/-- A flag written to VF (R111, R112). -/
def State.setFlag (f : Bool) (s : State) : State := s.setReg flagReg (flagByte f)

/-- The result to `V[x]` first, the flag to VF last, so that with x = 0xF VF ends as the flag (R112, D9). -/
def State.writeBack (x : Nibble) (o : AluOut) (s : State) : State :=
  match o.f with
  | none => s.setReg x o.r
  | some f => (s.setReg x o.r).setFlag f

/-- A register and ALU instruction: operands read, ALU, write-back (R110, R112, R113). -/
def State.aluStep (op : AluOp) (x : Nibble) (b : Operand) (s : State) : State :=
  s.writeBack x (alu op (s.reg x) (b.value s))

end Sys2Proof.Machine
end

