-- ==== Sys2Proof/Machine/Alu.lean ====
section
/-! DEFINITION. The meanings of the register and ALU instructions (43_alu.md). pc has already advanced (R102). -/

namespace Sys2Proof.Machine

/-- `LD Vx, byte` (R170). -/
def execLdVxByte (x : Nibble) (kk : Byte) (s : State) : Result := .next (s.aluStep .pass x (.imm kk))

/-- `ADD Vx, byte`: wraps, writes no flag (R171). -/
def execAddVxByte (x : Nibble) (kk : Byte) (s : State) : Result := .next (s.aluStep .addnf x (.imm kk))

/-- `LD Vx, Vy` (R172). -/
def execLdVxVy (x y : Nibble) (s : State) : Result := .next (s.aluStep .pass x (.reg y))

/-- `OR Vx, Vy` (R173). -/
def execOr (x y : Nibble) (s : State) : Result := .next (s.aluStep .or x (.reg y))

/-- `AND Vx, Vy` (R174). -/
def execAnd (x y : Nibble) (s : State) : Result := .next (s.aluStep .and x (.reg y))

/-- `XOR Vx, Vy` (R175). -/
def execXor (x y : Nibble) (s : State) : Result := .next (s.aluStep .xor x (.reg y))

/-- `ADD Vx, Vy`: VF = carry (R176). -/
def execAddVxVy (x y : Nibble) (s : State) : Result := .next (s.aluStep .add x (.reg y))

/-- `SUB Vx, Vy`: VF = (Vx > Vy) (R177, C2). -/
def execSub (x y : Nibble) (s : State) : Result := .next (s.aluStep .sub x (.reg y))

/-- `SHR Vx`: VF = the old bit 0; `y` is ignored (R178). -/
def execShr (x y : Nibble) (s : State) : Result := .next (s.aluStep .shr x (.reg y))

/-- `SUBN Vx, Vy`: VF = (Vy > Vx) (R179, C2). -/
def execSubn (x y : Nibble) (s : State) : Result := .next (s.aluStep .subn x (.reg y))

/-- `SHL Vx`: VF = the old bit 7; `y` is ignored (R180). -/
def execShl (x y : Nibble) (s : State) : Result := .next (s.aluStep .shl x (.reg y))

/-- `RND Vx, byte` once the random source has answered `r` (R181). -/
def State.rndWith (r : Byte) (x : Nibble) (kk : Byte) (s : State) : State := s.setReg x (r &&& kk)

/-- `RND Vx, byte`: the random byte is a free value (R118, R181, D22; log 3). -/
def execRnd (x : Nibble) (kk : Byte) (s : State) : Result :=
  .next ((s.rndWith (Config.rngByte s.draws) x kk).drawn)

end Sys2Proof.Machine
end

