-- ==== Sys2Proof/Machine/ControlFlow.lean ====
section
/-! DEFINITION. The meanings of the control transfers (41_control_flow.md). pc has already advanced (R102); a target is
not checked when it is written. -/

namespace Sys2Proof.Machine

/-- `RET` (R130). -/
def execRet (s : State) : Result :=
  .next (match s.pop with
    | none => s.raise (.stackUnderflow s.SP.val) .ret
    | some (v, s') => { s' with pc := v })

/-- `JP addr` (R131). -/
def execJp (nnn : Addr) (s : State) : Result := .next { s with pc := addrWord nnn }

/-- `CALL addr`: pushes the address after the CALL (R132). -/
def execCall (nnn : Addr) (s : State) : Result :=
  .next (match s.push s.pc with
    | none => s.raise (.stackOverflow s.SP.val) (.call nnn)
    | some s' => { s' with pc := addrWord nnn })

/-- `JP V0, addr`: a wrapping 16-bit add (R133). -/
def execJpV0Addr (nnn : Addr) (s : State) : Result := .next { s with pc := addrWord nnn + byteWord (s.reg 0#4) }

/-- `SYS addr`: takes the fault UnsupportedOpcode (R134, R253). -/
def execSys (nnn : Addr) (s : State) : Result := .next (s.raise .unsupportedOpcode (.sys nnn))

end Sys2Proof.Machine
end

