-- ==== Sys2Proof/Machine/IndexMemory.lean ====
section
/-! DEFINITION. The meanings of the index register and memory instructions (44_index_memory.md). pc has already advanced
(R102). -/

namespace Sys2Proof.Machine

/-- `LD I, addr` (R200). -/
def execLdIAddr (nnn : Addr) (s : State) : Result := .next { s with I := addrWord nnn }

/-- `ADD I, Vx`: wraps at 12 bits, writes no flag (R201). -/
def execAddIVx (x : Nibble) (s : State) : Result :=
  .next { s with I := BitVec.ofNat 16 ((s.I.toNat + (s.reg x).toNat) % 4096) }

/-- `LD F, Vx`: the open parameter FONT_ADDR (R202, D17; log 8). -/
def execLdFVx (x : Nibble) (s : State) : Result := .next { s with I := addrWord (Config.fontAddr (s.reg x)) }

/-- Bytes stored from I upwards by the instruction `i`; I is unchanged (R203, R204, D15). -/
def State.storeAtI (i : Instr) (bs : List Byte) (s : State) : State :=
  match writeBytes s.mem s.base bs with
  | .error a => s.raise (.addressFault a) i
  | .ok m => { s with mem := m }

/-- `LD B, Vx`: hundreds, tens and ones to I, I + 1, I + 2 (R203, D16). -/
def execLdBVx (x : Nibble) (s : State) : Result := .next (s.storeAtI (.ldBVx x) (bcdDigits (s.reg x)))

/-- `LD [I], Vx`: V0 to Vx to I upwards (R204, D15). -/
def execLdMemIVx (x : Nibble) (s : State) : Result := .next (s.storeAtI (.ldMemIVx x) (s.regsUpTo x))

/-- `LD Vx, [I]`: V0 to Vx from I upwards; I is unchanged (R205, D15). -/
def execLdVxMemI (x : Nibble) (s : State) : Result :=
  .next (match readBytes s.mem s.base (x.toNat + 1) with
    | .error a => s.raise (.addressFault a) (.ldVxMemI x)
    | .ok bs => s.setRegsFrom0 bs)

end Sys2Proof.Machine
end

