-- ==== Sys2Proof/Machine/Skips.lean ====
section
/-! DEFINITION. The meanings of the conditional skips (42_skips.md). pc has already advanced (R102). -/

namespace Sys2Proof.Machine

/-- `SE Vx, byte` (R150). -/
def execSeVxByte (x : Nibble) (kk : Byte) (s : State) : Result := .next (s.skipIf (s.reg x == kk))

/-- `SNE Vx, byte` (R151). -/
def execSneVxByte (x : Nibble) (kk : Byte) (s : State) : Result := .next (s.skipIf (s.reg x != kk))

/-- `SE Vx, Vy` (R152). -/
def execSeVxVy (x y : Nibble) (s : State) : Result := .next (s.skipIf (s.reg x == s.reg y))

/-- `SNE Vx, Vy` (R153). -/
def execSneVxVy (x y : Nibble) (s : State) : Result := .next (s.skipIf (s.reg x != s.reg y))

/-- `SKP Vx`: KeyRangeFault above 0xF, before the input device is asked; its answer is a free value (R154, R255; log 3). -/
def execSkp (x : Nibble) (s : State) : Result :=
  .next (match keyOf (s.reg x) with
    | none => s.raise (.keyRangeFault (s.reg x)) (.skp x)
    | some k => (s.skipIf (Config.keyDown s.draws k)).drawn)

/-- `SKNP Vx`: KeyRangeFault above 0xF, before the input device is asked; its answer is a free value (R155, R255; log 3). -/
def execSknp (x : Nibble) (s : State) : Result :=
  .next (match keyOf (s.reg x) with
    | none => s.raise (.keyRangeFault (s.reg x)) (.sknp x)
    | some k => (s.skipIf (!Config.keyDown s.draws k)).drawn)

end Sys2Proof.Machine
end

