-- ==== Sys2Proof/Machine/TimersInputDisplay.lean ====
section
/-! DEFINITION. The meanings of the display, timer and key-wait instructions (45_timers_input_display.md). pc has already
advanced (R102). -/

namespace Sys2Proof.Machine

/-- `CLS`: a request to the display, no change of the CORE (R220). -/
def execCls (s : State) : Result := .next (s.send .clear)

/-- `DRW Vx, Vy, n` once the rows are read and the display has answered `collided`: the request and VF (R221). -/
def State.drawWith (collided : Bool) (cx cy : Byte) (rows : List Byte) (s : State) : State :=
  (s.send (.blit cx cy rows)).setFlag collided

/-- `DRW Vx, Vy, n`: all rows are read before the display is called; its answer is a free value (R118, R221, D21; log 3). -/
def execDrw (x y n : Nibble) (s : State) : Result :=
  .next (match readBytes s.mem s.base n.toNat with
    | .error a => s.raise (.addressFault a) (.drw x y n)
    | .ok rows =>
      (s.drawWith (Config.blitCollided s.draws (s.reg x) (s.reg y) rows) (s.reg x) (s.reg y) rows).drawn)

/-- `LD Vx, DT` (R222). -/
def execLdVxDt (x : Nibble) (s : State) : Result := .next (s.setReg x s.DT)

/-- `LD Vx, K`, first half: the key wait is entered (R223). The second half is `State.keyPress` (R224). -/
def execLdVxK (x : Nibble) (s : State) : Result := .next { s with fsm := .waitKey x }

/-- `LD DT, Vx` (R225). -/
def execLdDtVx (x : Nibble) (s : State) : Result := .next { s with DT := s.reg x }

/-- `LD ST, Vx` (R226). -/
def execLdStVx (x : Nibble) (s : State) : Result := .next { s with ST := s.reg x }

end Sys2Proof.Machine
end

