-- ==== Sys2Proof/Machine/Events.lean ====
section
/-! DEFINITION. The host's events (R115), INVALID words (R254), program load (R58) and launch (R281). -/

namespace Sys2Proof.Machine

/-- A timer one tick later: it stops at 0 (R263, D20). -/
def timerDown (t : Byte) : Byte := if t = 0#8 then 0#8 else t - 1#8

/-- `Tick()` (R263). -/
def State.tick (s : State) : State := { s with DT := timerDown s.DT, ST := timerDown s.ST }

/-- `keyPress(k)`: ends a key wait with `V[x] <- k` (R224); outside WaitKey it changes nothing (R104, R115). -/
def State.keyPress (k : Nibble) (s : State) : State :=
  match s.fsm with
  | .waitKey x => { s.setReg x (keyByte k) with fsm := .ready }
  | .ready | .faulted _ => s

/-- The next move: the schedule's first where one is fixed, else a free choice (R115, D29). Nothing makes the choices fair:
an endless run of ticks is among them (R288; log 5). -/
def State.nextMove (s : State) : Config.HostMove := s.host.headD (Config.hostMove s.draws)

/-- The next move used up: off the schedule where it was fixed, else one free value taken (log 5). -/
def State.dropMove (s : State) : State :=
  { s with
    host := s.host.tail
    draws := if s.host.isEmpty then s.draws + 1 else s.draws }

/-- The policy for INVALID words that `step` runs with: the spec's default (R9, R254, D4; log 7). -/
def invalidPolicy : Config.InvalidPolicy := .fatal

/-- An INVALID word `op` executed, pc already advanced (R254): under `fatal` DecodeMiss is taken, under `skip` a diagnostic
is sent and nothing else happens. -/
def State.execInvalid (p : Config.InvalidPolicy) (op : Word) (s : State) : State :=
  match p with
  | .fatal => s.takeFault { kind := .decodeMiss, pc := s.instrAddr, opcode := some op }
  | .skip => s.send (.diagnostic s.instrAddr op)

/-- What a launch answers: the state the first step starts from, or LoadFault with the program's length (R257). -/
inductive Launched where
  | started (s : State)
  | loadFault (length : Nat)
deriving DecidableEq, Repr

/-- The numeric code of LoadFault (R250). -/
def loadFaultCode : Nat := 8

/-- Bytes put into memory one after another from `a` (R58). -/
def Memory.setFrom (m : Memory) (a : Nat) : List Byte → Memory
  | [] => m
  | b :: bs => Memory.setFrom (Memory.set m a b) (a + 1) bs

/-- Program load (R58): `none` is LoadFault. -/
def loadProgram (p : List Byte) (m : Memory) : Option Memory :=
  if Config.loadBase + p.length > Config.memSize then none else some (Memory.setFrom m Config.loadBase p)

/-- The (address, byte) pairs of FONT_IMAGE written in their order (R281). -/
def loadFont (font : List (Addr × Byte)) (m : Memory) : Memory :=
  font.foldl (fun m ab => Memory.set m ab.1.toNat ab.2) m

/-- The launch sequence (R281): the font image, the program, pc = ENTRY_PC, Ready (log 10). -/
def State.launch (font : List (Addr × Byte)) (p : List Byte) (s : State) : Launched :=
  match loadProgram p (loadFont font s.mem) with
  | none => .loadFault p.length
  | some m => .started { s with mem := m, pc := Config.entryPc, fsm := .ready }

/-- The launch of a program on this machine: from construction, with the open parameter FONT_IMAGE (R281, D17; log 9). -/
def boot (p : List Byte) : Launched := State.reset.launch Config.fontImage p

/-- An opcode stored at an address, high byte first (R53). -/
def Memory.setWord (m : Memory) (a : Nat) (op : Word) : Memory :=
  Memory.set (Memory.set m a (hiByte op)) (a + 1) (loByte op)

end Sys2Proof.Machine
end

