-- ==== Sys2Proof/Machine/Step.lean ====
section
/-! DEFINITION. The step of the machine (R100, R101) over the schedule of host moves (R115). -/

namespace Sys2Proof.Machine

/-- A step in Ready: fetch, decode, advance, execute (R101). -/
def cycle (p : Config.InvalidPolicy) (s : State) : Result :=
  match fetch s.mem s.pc with
  | .error a => .next (s.raiseFetch a)
  | .ok op =>
    match decodeWord op with
    | .instr i => exec i s.advance
    | .rejected _ => .next (s.advance.execInvalid p op)

/-- One move of the machine under an INVALID policy. Faulted is terminal (R105); a tick and a key press are the host's
(R115); in WaitKey the CORE takes no step, so its turn changes nothing (R104; log 6). -/
def stepWith (p : Config.InvalidPolicy) (s : State) : Result :=
  match s.fsm with
  | .faulted r => .fault (.halted r)
  | .waitKey _ =>
    match s.nextMove with
    | .tick => .next s.dropMove.tick
    | .keyPress k => .next (s.dropMove.keyPress k)
    | .step => .next s.dropMove
  | .ready =>
    match s.nextMove with
    | .tick => .next s.dropMove.tick
    | .keyPress k => .next (s.dropMove.keyPress k)
    | .step => cycle p s.dropMove

/-- One move of the machine, with the policy `invalidPolicy` (R254; log 7). -/
def step (s : State) : Result := stepWith invalidPolicy s

/-- `s` with the table's word `w` as the instruction that the very next step runs: its two bytes at pc, the control state
Ready, and the CORE's turn the move that comes next (log 5). Where no instruction can be fetched at pc (R53), pc is ENTRY_PC. -/
def State.withFetchWord (s : State) (nbits w : Nat) : State :=
  let a := if s.pc.toNat + 1 < Config.memSize then s.pc else Config.entryPc
  { s with
    pc := a
    fsm := .ready
    host := .step :: s.host
    mem := Memory.setWord s.mem a.toNat (tableWord nbits w) }

end Sys2Proof.Machine
end

