-- ==== Sys2Proof/Safety.lean ====
section
/-! DEFINITION. The terms claims are stated in: a running machine, the invariant, the end of a run, what a move leaves
unchanged, and what each instruction may write. -/

namespace Sys2Proof.Machine

/-- The machine has taken no fault (R31). -/
def State.running (s : State) : Bool :=
  match s.fsm with
  | .faulted _ => false
  | .ready | .waitKey _ => true

/-- The invariant of the machine: memory in canonical form and, in a machine that has taken no fault, I within its range
0 to 4095 (R24). A Faulted machine's registers are unspecified (D25). -/
def State.Inv (s : State) : Prop :=
  Memory.wf s.mem = true ∧ (s.running = true → s.I.toNat < Config.memSize)

/-- The end of a run at `e` (R117, D28; log 22): Ready, pc = e, and the word at `e` is `JP e`. -/
def State.atEnd (s : State) (e : Addr) : Prop :=
  s.fsm = .ready ∧ s.pc = addrWord e ∧ fetch s.mem s.pc = .ok (encode (.jp e))

/-- Every byte of memory reads in `t` as in `s`. -/
def State.SameMem (s t : State) : Prop := ∀ a, Memory.byte t.mem a = Memory.byte s.mem a

/-- Every general register but those listed reads in `t` as in `s`. -/
def State.SameRegsBut (xs : List Nibble) (s t : State) : Prop := ∀ z, z ∉ xs → t.reg z = s.reg z

/-- SP and every stack slot are the same. -/
def State.SameStack (s t : State) : Prop := t.SP = s.SP ∧ t.stack = s.stack

/-- DT and ST are the same. -/
def State.SameTimers (s t : State) : Prop := t.DT = s.DT ∧ t.ST = s.ST

/-- The control state, the schedule and the requests sent are the same. -/
def State.SameControl (s t : State) : Prop := t.fsm = s.fsm ∧ t.host = s.host ∧ t.sent = s.sent

/-- The frame of an instruction that writes general registers only: all else is the same, pc included. -/
def State.SameButRegs (xs : List Nibble) (s t : State) : Prop :=
  s.SameRegsBut xs t ∧ t.pc = s.pc ∧ t.I = s.I ∧ s.SameStack t ∧ s.SameTimers t ∧ s.SameMem t ∧ s.SameControl t

/-- The frame of an instruction that writes pc only. -/
def State.SameButPc (s t : State) : Prop :=
  s.SameRegsBut [] t ∧ t.I = s.I ∧ s.SameStack t ∧ s.SameTimers t ∧ s.SameMem t ∧ s.SameControl t

/-- The frame of an instruction that writes I only. -/
def State.SameButI (s t : State) : Prop :=
  s.SameRegsBut [] t ∧ t.pc = s.pc ∧ s.SameStack t ∧ s.SameTimers t ∧ s.SameMem t ∧ s.SameControl t

/-- The frame of an instruction that writes pc, SP and the stack only. -/
def State.SameButPcStack (s t : State) : Prop :=
  s.SameRegsBut [] t ∧ t.I = s.I ∧ s.SameTimers t ∧ s.SameMem t ∧ s.SameControl t

/-- The frame of an instruction that stores to the `n` bytes from address `b` only. -/
def State.SameButBytes (b n : Nat) (s t : State) : Prop :=
  s.SameRegsBut [] t ∧ t.pc = s.pc ∧ t.I = s.I ∧ s.SameStack t ∧ s.SameTimers t ∧ s.SameControl t ∧
    ∀ a, (a < b ∨ b + n ≤ a) → Memory.byte t.mem a = Memory.byte s.mem a

/-- `t` is `s` having taken the fault `k` in the instruction `i`, pc already advanced (R258): Faulted with the record that
names the kind, the instruction's address and its opcode. -/
def State.TookFault (k : FaultKind) (i : Instr) (s t : State) : Prop :=
  t.fsm = .faulted { kind := k, pc := s.pc - 2#16, opcode := some (encode i) }

/-- The general registers an instruction may write when it completes (R22). -/
def regsWritten : Instr → List Nibble
  | .ldVxByte x _ | .addVxByte x _ | .ldVxVy x _ | .or x _ | .and x _ | .xor x _ | .rnd x _ | .ldVxDt x => [x]
  | .addVxVy x _ | .sub x _ | .shr x _ | .subn x _ | .shl x _ => [x, 0xF#4]
  | .drw _ _ _ => [0xF#4]
  | .ldVxMemI x => (List.range (x.toNat + 1)).map (BitVec.ofNat 4)
  | .cls | .ret | .sys _ | .jp _ | .call _ | .seVxByte _ _ | .sneVxByte _ _ | .seVxVy _ _ | .sneVxVy _ _ | .ldIAddr _
  | .jpV0Addr _ | .skp _ | .sknp _ | .ldVxK _ | .ldDtVx _ | .ldStVx _ | .addIVx _ | .ldFVx _ | .ldBVx _
  | .ldMemIVx _ => []

/-- The fault an instruction takes in a state, pc already advanced, if it takes one (R250 to R256, R260): the causes of
each kind, written as conditions on the operands. -/
def faultOf (i : Instr) (s : State) : Option FaultKind :=
  match i with
  | .sys _ => some .unsupportedOpcode
  | .call _ => if s.SP.val = 16 then some (.stackOverflow 16) else none
  | .ret => if s.SP.val = 0 then some (.stackUnderflow 0) else none
  | .skp x | .sknp x => if (s.reg x).toNat > 0xF then some (.keyRangeFault (s.reg x)) else none
  | .drw _ _ n => if n.toNat ≠ 0 ∧ s.I.toNat + n.toNat - 1 ≥ 4096 then some (.addressFault (max s.I.toNat 4096)) else none
  | .ldBVx _ => if s.I.toNat + 2 ≥ 4096 then some (.addressFault (max s.I.toNat 4096)) else none
  | .ldMemIVx x | .ldVxMemI x =>
    if s.I.toNat + x.toNat ≥ 4096 then some (.addressFault (max s.I.toNat 4096)) else none
  | .cls | .jp _ | .seVxByte _ _ | .sneVxByte _ _ | .seVxVy _ _ | .ldVxByte _ _ | .addVxByte _ _ | .ldVxVy _ _ | .or _ _
  | .and _ _ | .xor _ _ | .addVxVy _ _ | .sub _ _ | .shr _ _ | .subn _ _ | .shl _ _ | .sneVxVy _ _ | .ldIAddr _
  | .jpV0Addr _ | .rnd _ _ | .ldVxDt _ | .ldVxK _ | .ldDtVx _ | .ldStVx _ | .addIVx _ | .ldFVx _ => none

end Sys2Proof.Machine
end

