-- ==== Sys2Proof/Certificates/Slice0/Obligations.lean ====
section
/-! DEFINITION. The statements for the provers, from the rules of spec/. A clause that rests on a decision or derivation the
spec marks as its own (D<n>) or on a log entry of this model says so in its docstring. -/

namespace Sys2Proof.Claims

open Sys2Proof Sys2Proof.Machine

/-- The tag of a word by its high nibble, as R80 tells the opcode map in prose. -/
def tagByNibbles (op : Word) : Tag :=
  let w := op.toNat
  match w / 4096 with
  | 0 => if w = 0x00E0 then .cls else if w = 0x00EE then .ret else .sys
  | 1 => .jp
  | 2 => .call
  | 3 => .seVxByte
  | 4 => .sneVxByte
  | 5 => if w % 16 = 0 then .seVxVy else .invalid
  | 6 => .ldVxByte
  | 7 => .addVxByte
  | 8 =>
    match w % 16 with
    | 0 => .ldVxVy
    | 1 => .or
    | 2 => .and
    | 3 => .xor
    | 4 => .addVxVy
    | 5 => .sub
    | 6 => .shr
    | 7 => .subn
    | 0xE => .shl
    | _ => .invalid
  | 9 => if w % 16 = 0 then .sneVxVy else .invalid
  | 0xA => .ldIAddr
  | 0xB => .jpV0Addr
  | 0xC => .rnd
  | 0xD => .drw
  | 0xE => if w % 256 = 0x9E then .skp else if w % 256 = 0xA1 then .sknp else .invalid
  | 0xF =>
    match w % 256 with
    | 0x07 => .ldVxDt
    | 0x0A => .ldVxK
    | 0x15 => .ldDtVx
    | 0x18 => .ldStVx
    | 0x1E => .addIVx
    | 0x29 => .ldFVx
    | 0x33 => .ldBVx
    | 0x55 => .ldMemIVx
    | 0x65 => .ldVxMemI
    | _ => .invalid
  | _ => .invalid

/-- The tags with an `x` and a `kk` operand (R78). -/
def xkkTags : List Tag := [.seVxByte, .sneVxByte, .ldVxByte, .addVxByte, .rnd]

/-- The row of a tag stands before the row of another in a list of rows. -/
def Before (rows : List Row) (t u : Tag) : Prop :=
  ∃ l m r a b, rows = l ++ a :: m ++ b :: r ∧ a.tag = t ∧ b.tag = u

/-- CALLs executed one after another. -/
def callChain : List Addr → State → Result
  | [], s => .next s
  | n :: ns, s =>
    match exec (.call n) s with
    | .next t => callChain ns t
    | r => r

/-- The two bytes at pc. -/
def bytesAtPc (s : State) : List Byte := [Memory.byte s.mem s.pc.toNat, Memory.byte s.mem (s.pc.toNat + 1)]

/-- The instructions that write pc beyond the advance: jumps, calls, returns and skips (R102, R107, 41_control_flow.md). -/
def writesPc : Instr → Bool
  | .ret | .jp _ | .call _ | .jpV0Addr _ | .seVxByte _ _ | .sneVxByte _ _ | .seVxVy _ _ | .sneVxVy _ _ | .skp _
  | .sknp _ => true
  | _ => false

/-- The skip instructions (42_skips.md). -/
def isSkip : Instr → Bool
  | .seVxByte _ _ | .sneVxByte _ _ | .seVxVy _ _ | .sneVxVy _ _ | .skp _ | .sknp _ => true
  | _ => false

end Sys2Proof.Claims

open Sys2Proof Sys2Proof.Machine Sys2Proof.Claims

/-! ### The encoding (30_encoding.md) -/

/-- Decoding the word or the two bytes of a well-formed instruction gives it back, every operand at every value (R53, R74,
R75, R78, R79; the bit patterns are the spec's decision D1). -/
def Obligations.DecodeOfEncodeIsTheInstruction : Prop :=
  ∀ i : Instr, i.wf = true → decodeWord (encode i) = .instr i ∧ ∀ rest, decode (encodeBytes i ++ rest) = .instr i

/-- A word that decodes to an instruction is the encoding of it, and the instruction is well formed: no bit of a word is
dropped (R75, R78, R82; patterns D1). -/
def Obligations.EncodeOfDecodeIsTheWord : Prop :=
  ∀ (op : Word) (i : Instr), decodeWord op = .instr i → encode i = op ∧ i.wf = true

/-- R73 and R74: the first row whose masked opcode equals its pattern wins and the payload is `op & ~mask`; no match gives
INVALID with payload 0; the three examples of R74. -/
def Obligations.FirstMatchingRowWins : Prop :=
  (∀ (op : Word) (pre post : List Row) (r : Row), opcodeMap = pre ++ r :: post → op &&& r.mask = r.pattern →
    (∀ q ∈ pre, op &&& q.mask ≠ q.pattern) → decodeTag op = (r.tag, op &&& ~~~r.mask)) ∧
  (∀ op : Word, (∀ r ∈ opcodeMap, op &&& r.mask ≠ r.pattern) → decodeTag op = (.invalid, 0#16)) ∧
  decodeTag 0x00E0#16 = (.cls, 0#16) ∧ decodeTag 0x124E#16 = (.jp, 0x024E#16) ∧
  decodeTag 0x224E#16 = (.call, 0x024E#16)

/-- R79: only SYS shares words with other rows, the words of CLS and RET; so every order of the rows in which CLS and RET
precede SYS decodes every word alike, and SYS has exactly 0x0000 to 0x0FFF without 0x00E0 and 0x00EE (a derivation of the
spec, its decision D3). -/
def Obligations.RowOrderMattersForSysOnly : Prop :=
  (∀ rows : List Row, rows.Perm opcodeMap → Before rows .cls .sys → Before rows .ret .sys →
    ∀ op : Word, decodeTagIn rows op = decodeTag op) ∧
  (∀ (op : Word) (q r : Row), q ∈ opcodeMap → r ∈ opcodeMap → q.hits op = true → r.hits op = true → q ≠ r →
    (q.tag = .sys ∧ (r.tag = .cls ∨ r.tag = .ret)) ∨ (r.tag = .sys ∧ (q.tag = .cls ∨ q.tag = .ret))) ∧
  (∀ op : Word, (decodeTag op).1 = .sys ↔ op.toNat ≤ 0x0FFF ∧ op ≠ 0x00E0#16 ∧ op ≠ 0x00EE#16)

/-- R80 and R81: the tag of every word by its nibbles, the INVALID words among them (derivations of the spec; patterns D1). -/
def Obligations.TagByHighNibble : Prop :=
  ∀ op : Word, (decodeTag op).1 = tagByNibbles op ∧
    (decodeWord op = .rejected .invalid ↔ tagByNibbles op = .invalid)

/-- R75: every field read from the payload is the field read from the opcode, and `x`, `kk` taken from the payload rebuild
the low 12 bits of the opcode (a derivation of the spec). -/
def Obligations.PayloadFieldsAreOpcodeFields : Prop :=
  ∀ op : Word, Instr.ofTag (decodeTag op).1 (decodeTag op).2 = Instr.ofTag (decodeTag op).1 op ∧
    ((decodeTag op).1 ∈ xkkTags → fieldX (decodeTag op).2 ++ fieldKK (decodeTag op).2 = fieldNNN op)

/-- Words of the spec's examples, one or more per family, decode to the instructions they stand for (95_test_vectors.md). -/
def Obligations.SpecWordsDecode : Prop :=
  decodeWord 0x00E0#16 = .instr .cls ∧ decodeWord 0x124E#16 = .instr (.jp 0x24E#12) ∧
  decodeWord 0x224E#16 = .instr (.call 0x24E#12) ∧ decodeWord 0x00E1#16 = .instr (.sys 0x0E1#12) ∧
  decode [0x3B#8, 0x22#8] = .instr (.seVxByte 0xB#4 0x22#8) ∧ decodeWord 0x8AB1#16 = .instr (.or 0xA#4 0xB#4) ∧
  decodeWord 0x8AB6#16 = .instr (.shr 0xA#4 0xB#4) ∧ decodeWord 0xD12F#16 = .instr (.drw 1#4 2#4 0xF#4) ∧
  decodeWord 0xE1A1#16 = .instr (.sknp 1#4) ∧ decodeWord 0xF165#16 = .instr (.ldVxMemI 1#4) ∧
  decodeWord 0x5121#16 = .rejected .invalid

/-! ### The step (40_cycle.md) -/

/-- R101: a step in Ready fetches, decodes, advances pc by 2 and executes; a fetch may raise AddressFault. (That the step is
taken at the CORE's turn, and that this move is then used up, is the model's choice, log 5; `dropMove` is stated in
EveryMoveMayComeNext.) -/
def Obligations.StepFetchesDecodesAdvancesExecutes : Prop :=
  ∀ (p : Config.InvalidPolicy) (s : State), s.fsm = .ready → s.nextMove = .step →
    (∀ a, fetch s.mem s.pc = .error a → ∃ t r, stepWith p s = .next t ∧ t.fsm = .faulted r ∧ r.kind = .addressFault a) ∧
    (∀ op i, fetch s.mem s.pc = .ok op → decodeWord op = .instr i →
      stepWith p s = exec i { s.dropMove with pc := s.pc + 2#16 }) ∧
    (∀ op, fetch s.mem s.pc = .ok op → decodeWord op = .rejected .invalid →
      stepWith p s = .next (State.execInvalid p op { s.dropMove with pc := s.pc + 2#16 }))

/-- R53, R55, R101: where the two bytes at pc, even or odd, the lower address first, decode to an instruction, the step is
that instruction's `exec` on the state with pc advanced by 2 and the move used up (the byte order is a derivation of the
spec, no alignment rule its decision D11, log 16; the CORE's turn is log 5). -/
def Obligations.StepRunsTheInstructionAtPc : Prop :=
  ∀ (s : State) (i : Instr), s.fsm = .ready → s.nextMove = .step → s.pc.toNat + 1 < 4096 →
    decode (bytesAtPc s) = .instr i → step s = exec i { s.dropMove with pc := s.pc + 2#16 }

/-- R53, R66, R251, R258: a fetch at pc >= 4095 takes AddressFault at the first of pc, pc + 1 that is 4096 or more, with no
opcode in the record (no wrap is the spec's decision D12, the record D24). -/
def Obligations.FetchOutsideMemoryFaults : Prop :=
  ∀ (p : Config.InvalidPolicy) (s : State), s.fsm = .ready → s.nextMove = .step → 4095 ≤ s.pc.toNat →
    ∃ t, stepWith p s = .next t ∧ t.fsm = .faulted
      { kind := .addressFault (if s.pc.toNat = 4095 then 4096 else s.pc.toNat), pc := s.pc, opcode := none }

/-- R254: an INVALID word under `fatal` takes DecodeMiss; under `skip` the step's only change of the CORE is pc + 2, and a
diagnostic is sent. `step` runs with `fatal`. (The reading of `skip`, and the default, are the spec's decision D4, log 7;
that the diagnostic stands in `sent` is log 11.) -/
def Obligations.InvalidWordFollowsThePolicy : Prop :=
  ∀ (s : State) (op : Word), s.fsm = .ready → s.nextMove = .step → fetch s.mem s.pc = .ok op →
    decodeWord op = .rejected .invalid →
    (∃ t, stepWith .fatal s = .next t ∧ t.fsm = .faulted { kind := .decodeMiss, pc := s.pc, opcode := some op }) ∧
    (∃ t, stepWith .skip s = .next t ∧ t.pc = s.pc + 2#16 ∧ s.SameRegsBut [] t ∧ t.I = s.I ∧ s.SameStack t ∧
      s.SameTimers t ∧ s.SameMem t ∧ t.fsm = .ready ∧ t.host = s.host.tail ∧
      t.sent = s.sent ++ [.diagnostic s.pc op]) ∧
    step s = stepWith .fatal s

/-- R105: in Faulted there is no step and no event changes the state (the model's step answers the host outcome `fault`
with the record, log 1), and Faulted is never the end of a run. -/
def Obligations.FaultedIsTerminal : Prop :=
  ∀ (p : Config.InvalidPolicy) (s : State) (r : FaultRecord), s.fsm = .faulted r →
    stepWith p s = .fault (.halted r) ∧ ∀ e, ¬ s.atEnd e

/-- R104: in WaitKey(x) there is no step; only a key press and timer ticks change the state. (That a turn of the CORE then
answers the same state, but for the move used up, is log 6, log 5.) -/
def Obligations.KeyWaitHoldsTheCore : Prop :=
  ∀ (p : Config.InvalidPolicy) (s : State) (x : Nibble), s.fsm = .waitKey x →
    ∃ t, stepWith p s = .next t ∧ t.pc = s.pc ∧ s.SameMem t ∧ t.I = s.I ∧ s.SameStack t ∧
      (s.nextMove = .step → t = { s with host := s.host.tail, draws := t.draws }) ∧
      (s.nextMove = .tick → t.fsm = .waitKey x ∧ s.SameRegsBut [] t) ∧
      (∀ k, s.nextMove = .keyPress k → t.fsm = .ready)

/-- R224, R115: a key press in WaitKey(x) writes the key number to V[x] and makes the machine Ready, and changes nothing
else; in Ready it changes nothing (the spec's decisions D19, D29, logs 18, 5; the move used up is log 5). -/
def Obligations.KeyPressEndsTheWaitOnly : Prop :=
  ∀ (p : Config.InvalidPolicy) (s : State) (k : Nibble), s.nextMove = .keyPress k →
    (∀ x, s.fsm = .waitKey x → ∃ t, stepWith p s = .next t ∧ (t.reg x).toNat = k.toNat ∧ t.fsm = .ready ∧
      s.SameRegsBut [x] t ∧ t.pc = s.pc ∧ t.I = s.I ∧ s.SameStack t ∧ s.SameTimers t ∧ s.SameMem t ∧
      t.host = s.host.tail ∧ t.sent = s.sent) ∧
    (s.fsm = .ready → ∃ t, stepWith p s = .next t ∧ t = { s with host := s.host.tail, draws := t.draws })

/-- R263: a tick counts DT and ST down to 0 and changes nothing else, in Ready and in WaitKey (that a timer stops at 0 is the
spec's decision D20). -/
def Obligations.TickCountsTimersDown : Prop :=
  ∀ (p : Config.InvalidPolicy) (s : State), s.running = true → s.nextMove = .tick →
    ∃ t, stepWith p s = .next t ∧ t.DT.toNat = s.DT.toNat - 1 ∧ t.ST.toNat = s.ST.toNat - 1 ∧ s.SameRegsBut [] t ∧
      t.pc = s.pc ∧ t.I = s.I ∧ s.SameStack t ∧ s.SameMem t ∧ t.fsm = s.fsm ∧ t.host = s.host.tail ∧ t.sent = s.sent

/-- R100, R115: the transitions of the control state machine, and no others: in Ready and in WaitKey every move has a next
state, out of Faulted none leads, and each next state is one listed. (A key press in Ready stays Ready by R115 and the
spec's decision D29, log 5; the CORE's turn in WaitKey is log 6; that Faulted has no next state is log 1.) -/
def Obligations.OnlyTheseTransitions : Prop :=
  ∀ (p : Config.InvalidPolicy) (s : State),
    (s.fsm = .ready ∨ (∃ x, s.fsm = .waitKey x) → ∃ t, stepWith p s = .next t) ∧
    ∀ t : State, stepWith p s = .next t →
      (s.fsm = .ready ∧ s.nextMove = .step ∧
        (t.fsm = .ready ∨ (∃ r, t.fsm = .faulted r) ∨
          ∃ x op, fetch s.mem s.pc = .ok op ∧ decodeWord op = .instr (.ldVxK x) ∧ t.fsm = .waitKey x) ∧
        (∀ x op, fetch s.mem s.pc = .ok op → decodeWord op = .instr (.ldVxK x) → t.fsm = .waitKey x)) ∨
      (s.fsm = .ready ∧ s.nextMove ≠ .step ∧ t.fsm = .ready) ∨
      (∃ x, s.fsm = .waitKey x ∧
        ((∃ k, s.nextMove = .keyPress k ∧ (t.reg x).toNat = k.toNat ∧ t.fsm = .ready) ∨
          ((∀ k, s.nextMove ≠ .keyPress k) ∧ t.fsm = .waitKey x)))

/-- Every move of the machine keeps the invariant: memory in canonical form (below 4096, R50), and I in 0 to 4095 while the
machine has taken no fault (R24). -/
def Obligations.InvariantKeptByEveryMove : Prop :=
  ∀ (p : Config.InvalidPolicy) (s t : State), s.Inv → stepWith p s = .next t → t.Inv

/-- Construction meets the invariant, and so does every state a launch starts from, whatever the program and the font. -/
def Obligations.ConstructionAndLaunchMeetTheInvariant : Prop :=
  State.reset.Inv ∧ ∀ font p t, State.reset.launch font p = .started t → t.Inv

/-- R280 with the values of R35: construction leaves every register, timer and stack slot 0, the stack empty, pc 0, memory
0x00 everywhere, Ready. (ST and the stack slots are the spec's decisions D7 and D14, log 14.) -/
def Obligations.ConstructionValues : Prop :=
  (∀ z, State.reset.reg z = 0#8) ∧ State.reset.I = 0#16 ∧ State.reset.pc = 0#16 ∧ State.reset.SP.val = 0 ∧
  (∀ j : Fin 16, State.reset.stack[j.val]'j.isLt = 0#16) ∧ State.reset.DT = 0#8 ∧ State.reset.ST = 0#8 ∧
  (∀ a, Memory.byte State.reset.mem a = 0#8) ∧ State.reset.fsm = .ready

/-- R58: a program too long for memory is LoadFault and there is no run; any other is written verbatim from 0x200, and the
bytes it does not cover keep their value. -/
def Obligations.ProgramLoadWritesVerbatim : Prop :=
  ∀ (m : Memory) (p : List Byte), Memory.wf m = true →
    (0x200 + p.length > 4096 → loadProgram p m = none ∧
      ∀ (s : State) (font : List (Addr × Byte)), s.launch font p = .loadFault p.length) ∧
    (0x200 + p.length ≤ 4096 → ∃ m', loadProgram p m = some m' ∧ Memory.wf m' = true ∧
      (∀ (i : Nat) (h : i < p.length), Memory.byte m' (0x200 + i) = p[i]) ∧
      ∀ a, (a < 0x200 ∨ 0x200 + p.length ≤ a) → Memory.byte m' a = Memory.byte m a)

/-- R281, R282: the state after a launch from construction: pc 0x200, registers, timers and stack 0, Ready, the program at
0x200, the font image where the program does not cover it, 0x00 elsewhere (the spec's decisions D5 and D6, log 10). -/
def Obligations.LaunchState : Prop :=
  ∀ (font : List (Addr × Byte)) (p : List Byte), 0x200 + p.length ≤ 4096 →
    ∃ t, State.reset.launch font p = .started t ∧ t.pc = 0x200#16 ∧ (∀ z, t.reg z = 0#8) ∧ t.I = 0#16 ∧ t.SP.val = 0 ∧
      t.DT = 0#8 ∧ t.ST = 0#8 ∧ t.fsm = .ready ∧
      (∀ (i : Nat) (h : i < p.length), Memory.byte t.mem (0x200 + i) = p[i]) ∧
      ∀ a, (a < 0x200 ∨ 0x200 + p.length ≤ a) →
        ((∀ q ∈ font, q.1.toNat ≠ a) → Memory.byte t.mem a = 0#8) ∧
        ∀ b, (∃ q ∈ font, q.1.toNat = a) → (∀ q ∈ font, q.1.toNat = a → q.2 = b) → Memory.byte t.mem a = b

/-- The host's placement of an instruction: from every state with canonical memory, the very next step runs the instruction
the decoder reads from the table's word, on the state with pc advanced and the rest as it was (the model's convention,
log 10). -/
def Obligations.PlacedWordIsRunByTheNextStep : Prop :=
  ∀ (s : State) (w : Nat) (i : Instr), Memory.wf s.mem = true → decodeTableWord 16 w = some i →
    step (s.withFetchWord 16 w) =
      exec i { s with
        pc := (s.withFetchWord 16 w).pc + 2#16
        fsm := .ready
        mem := (s.withFetchWord 16 w).mem }

/-! ### Rules about every instruction -/

/-- R250 to R256, R260: every instruction answers a next state; it takes a fault exactly when listed, with the record of R258
(pc already advanced), and otherwise goes on. Rests on the spec's decisions D12 (no wrap), D18 (key range), D24 (record). -/
def Obligations.FaultsExactlyAsListed : Prop :=
  ∀ (i : Instr) (s : State), s.running = true → ∃ t, exec i s = .next t ∧
    match faultOf i s with
    | some k => s.TookFault k i t
    | none => t.running = true

/-- R256, R23: no step takes RegisterIndexFault. -/
def Obligations.RegisterIndexFaultIsUnreachable : Prop :=
  ∀ (p : Config.InvalidPolicy) (s t : State) (r : FaultRecord), stepWith p s = .next t → t.fsm = .faulted r →
    ∀ n, r.kind ≠ .registerIndexFault n

/-- R258: a move that takes a fault is a step in Ready, and its record names the address of the instruction, its opcode
(none for a fault of the fetch) and a code from 1 to 7 (the record is the spec's decision D24). -/
def Obligations.FaultRecordNamesTheInstruction : Prop :=
  ∀ (p : Config.InvalidPolicy) (s t : State) (r : FaultRecord), stepWith p s = .next t → t.fsm = .faulted r →
    s.fsm = .ready ∧ s.nextMove = .step ∧ r.pc = s.pc ∧ 1 ≤ r.kind.code ∧ r.kind.code ≤ 7 ∧
      (∀ op, fetch s.mem s.pc = .ok op → r.opcode = some op) ∧
      (∀ a, fetch s.mem s.pc = .error a → r.opcode = none ∧ r.kind = .addressFault a)

/-- R22, R21: an instruction that completes writes no general register but those listed for it (a derivation of the spec). -/
def Obligations.OnlyListedRegistersAreWritten : Prop :=
  ∀ (i : Instr) (s t : State), exec i s = .next t → t.running = true → s.SameRegsBut (regsWritten i) t

/-- R24: only LD I, ADD I and LD F write I, and what they write is in 0 to 4095 (that LD [I] and LD Vx,[I] leave I is the
spec's decision D15). -/
def Obligations.OnlyThreeInstructionsWriteI : Prop :=
  ∀ (i : Instr) (s t : State), exec i s = .next t → t.running = true →
    (i.tag ∉ [Tag.ldIAddr, .addIVx, .ldFVx] → t.I = s.I) ∧
    (i.tag ∈ [Tag.ldIAddr, .addIVx, .ldFVx] → t.I.toNat < 4096)

/-- R26: SP is 0 to 16, 0 for an empty stack and 16 for a full one, and only CALL (push) and RET (pop) change it. -/
def Obligations.OnlyCallAndRetChangeSP : Prop :=
  ∀ (i : Instr) (s t : State), exec i s = .next t → t.running = true →
    t.SP.val ≤ 16 ∧ (i.tag ≠ .call → i.tag ≠ .ret → t.SP = s.SP ∧ t.stack = s.stack) ∧
    (i.tag = .call → s.SP.val ≠ 16 ∧ t.SP.val = s.SP.val + 1) ∧ (i.tag = .ret → s.SP.val ≠ 0 ∧ t.SP.val + 1 = s.SP.val)

/-- R65, R28, R29: of the instructions that complete, only LD B and LD [I] write memory (every byte reads as before after
any other), only LD DT writes DT and only LD ST writes ST. -/
def Obligations.MemoryAndTimersHaveFewWriters : Prop :=
  ∀ (i : Instr) (s t : State), exec i s = .next t → t.running = true →
    (i.tag ∉ [Tag.ldBVx, .ldMemIVx] → s.SameMem t) ∧ (i.tag ≠ .ldDtVx → t.DT = s.DT) ∧ (i.tag ≠ .ldStVx → t.ST = s.ST)

/-- R29: no instruction reads ST: with another ST, an instruction that completes does the same to everything else. -/
def Obligations.SoundTimerIsNeverRead : Prop :=
  ∀ (i : Instr) (s t : State) (b : Byte), exec i s = .next t → t.running = true →
    exec i { s with ST := b } = .next { t with ST := if i.tag = .ldStVx then t.ST else b }

/-- R27: slots at j >= SP are not read: two states that differ only there stay so, whatever instruction completes. -/
def Obligations.FreeStackSlotsAreNeverRead : Prop :=
  ∀ (i : Instr) (s t t' : State) (st : Vector Word 16),
    (∀ j : Fin 16, j.val < s.SP.val → st[j.val]'j.isLt = s.stack[j.val]'j.isLt) →
    exec i s = .next t → exec i { s with stack := st } = .next t' → t.running = true →
    t' = { t with stack := t'.stack } ∧
      ∀ j : Fin 16, j.val < t.SP.val → t'.stack[j.val]'j.isLt = t.stack[j.val]'j.isLt

/-- R102, R107: an instruction that completes leaves pc at the advanced value unless it is a control transfer or a skip; a
skip leaves it there or adds 2 (a derivation of the spec). -/
def Obligations.PcStaysAdvancedOrSkips : Prop :=
  ∀ (i : Instr) (s t : State), exec i s = .next t → t.running = true →
    (writesPc i = false → t.pc = s.pc) ∧ (isSkip i = true → t.pc = s.pc ∨ t.pc = s.pc + 2#16)

/-! ### Memory (20_memory.md) -/

/-- R51, R52, R66: a write below 4096 stores the byte there, every other byte reads as before, and the canonical form is
kept; a read below 4096 gives the byte; any access at 4096 or above faults with that address. -/
def Obligations.ReadAfterWrite : Prop :=
  ∀ (m : Memory) (a : Nat) (v : Byte), Memory.wf m = true →
    (a < 4096 → memRead m a = .ok (Memory.byte m a) ∧ ∃ m', memWrite m a v = .ok m' ∧ Memory.wf m' = true ∧
      memRead m' a = .ok v ∧ ∀ a', a' ≠ a → memRead m' a' = memRead m a') ∧
    (4096 ≤ a → memRead m a = .error a ∧ memWrite m a v = .error a)

/-- R63: bytes stored by LD [I], Vx are seen by the next fetch from them, high byte first (the spec's decision D27). -/
def Obligations.StoredBytesAreFetched : Prop :=
  ∀ (s : State) (x k : Nibble) (pc : Word), Memory.wf s.mem = true → s.base + x.toNat < 4096 → k.toNat < x.toNat →
    pc.toNat = s.base + k.toNat →
    ∃ t, exec (.ldMemIVx x) s = .next t ∧ fetch t.mem pc = .ok (s.reg k ++ s.reg (k + 1#4))

/-- R117: once a run is at its end at e, then after any number of moves it is still there, and no register but DT and ST, no
byte of memory and nothing of the stack has changed (the definition is the spec's decision D28, log 22). -/
def Obligations.EndOfRunIsStable : Prop :=
  ∀ (n : Nat) (s : State) (e : Addr), s.atEnd e →
    ∃ t : State, Sys2Proof.core.run n s = .next t ∧ t.atEnd e ∧ s.SameRegsBut [] t ∧ t.I = s.I ∧ s.SameStack t ∧
      t.mem = s.mem ∧ t.sent = s.sent

/-! ### Control flow (41_control_flow.md) -/

/-- R130: RET with a stack that is not empty pops the return address into pc; the slot keeps its value; nothing else changes
(the order of pop is the spec's decision D13). -/
def Obligations.RetPopsIntoPc : Prop :=
  ∀ (s : State) (h : s.SP.val ≠ 0),
    ∃ t, exec .ret s = .next t ∧ t.pc = s.stack[s.SP.val - 1]'(Nat.sub_one_lt_of_le (Nat.pos_of_ne_zero h) (Nat.le_of_lt_succ s.SP.isLt)) ∧
      t.SP.val = s.SP.val - 1 ∧ t.stack = s.stack ∧ s.SameButPcStack t

/-- R132: CALL with room pushes pc, the address after the CALL, and jumps; the other slots and everything else are unchanged
(the order of push is the spec's decision D13). -/
def Obligations.CallPushesAndJumps : Prop :=
  ∀ (nnn : Addr) (s : State) (h : s.SP.val < 16),
    ∃ t, exec (.call nnn) s = .next t ∧ t.pc.toNat = nnn.toNat ∧ t.SP.val = s.SP.val + 1 ∧
      t.stack[s.SP.val]'h = s.pc ∧
      (∀ j : Fin 16, j.val ≠ s.SP.val → t.stack[j.val]'j.isLt = s.stack[j.val]'j.isLt) ∧ s.SameButPcStack t

/-- R132: a RET right after a CALL returns to the instruction after the CALL, with the stack as deep as before; the slot that
the CALL used keeps the return address, every other slot and everything else is unchanged (the order of push and pop is
the spec's decision D13, log 14). -/
def Obligations.RetAfterCallReturns : Prop :=
  ∀ (nnn : Addr) (s : State), s.SP.val < 16 →
    ∃ t u, exec (.call nnn) s = .next t ∧ exec .ret t.advance = .next u ∧ u.pc = s.pc ∧ u.SP = s.SP ∧
      (∀ j : Fin 16, u.stack[j.val]'j.isLt = if j.val = s.SP.val then s.pc else s.stack[j.val]'j.isLt) ∧
      s.SameButPcStack u

/-- R252: CALLs succeed while there is room, 16 from an empty stack, and the 17th takes StackFault(overflow), as every CALL on
a full stack does; RET on an empty stack takes StackFault(underflow); nothing else raises either. -/
def Obligations.SixteenCallsThenStackFault : Prop :=
  (∀ (ns : List Addr) (s : State), s.SP.val + ns.length ≤ 16 →
    ∃ t, callChain ns s = .next t ∧ t.SP.val = s.SP.val + ns.length ∧ t.fsm = s.fsm) ∧
  (∀ (ns : List Addr) (n : Addr) (s : State), s.SP.val = 0 → ns.length = 16 →
    ∃ t u r, callChain ns s = .next t ∧ exec (.call n) t = .next u ∧ u.fsm = .faulted r ∧ r.kind = .stackOverflow 16) ∧
  (∀ (n : Addr) (s : State), s.SP.val = 16 →
    ∃ u r, exec (.call n) s = .next u ∧ u.fsm = .faulted r ∧ r.kind = .stackOverflow 16) ∧
  (∀ s : State, s.SP.val = 0 → ∃ u r, exec .ret s = .next u ∧ u.fsm = .faulted r ∧ r.kind = .stackUnderflow 0) ∧
  (∀ (i : Instr) (s t : State) (r : FaultRecord) (n : Nat), s.running = true → exec i s = .next t → t.fsm = .faulted r →
    (r.kind = .stackOverflow n → n = 16 ∧ s.SP.val = 16 ∧ i.tag = .call) ∧
    (r.kind = .stackUnderflow n → n = 0 ∧ s.SP.val = 0 ∧ i = .ret))

/-- R131, R133: JP sets pc to nnn and JP V0 to nnn + V0, a sum that never wraps; nothing else changes (that the 16-bit wrap
cannot take effect is a derivation of the spec). -/
def Obligations.JumpsSetPc : Prop :=
  ∀ (nnn : Addr) (s : State),
    (∃ t, exec (.jp nnn) s = .next t ∧ t.pc.toNat = nnn.toNat ∧ s.SameButPc t) ∧
    (∃ t, exec (.jpV0Addr nnn) s = .next t ∧ t.pc.toNat = nnn.toNat + (s.reg 0#4).toNat ∧ s.SameButPc t)

/-- R253: every execution of SYS takes UnsupportedOpcode. -/
def Obligations.SysTakesUnsupportedOpcode : Prop :=
  ∀ (nnn : Addr) (s : State), ∃ t r, exec (.sys nnn) s = .next t ∧ t.fsm = .faulted r ∧
    r.kind = .unsupportedOpcode

/-! ### Skips (42_skips.md) -/

/-- R150, R151, R152, R153: SE skips on equality and SNE on difference, for a byte and for a register; nothing but pc
changes. -/
def Obligations.ComparisonSkips : Prop :=
  ∀ (x y : Nibble) (kk : Byte) (s : State),
    (∃ t u, exec (.seVxByte x kk) s = .next t ∧ exec (.sneVxByte x kk) s = .next u ∧
      t.pc = (if s.reg x = kk then s.pc + 2#16 else s.pc) ∧ u.pc = (if s.reg x = kk then s.pc else s.pc + 2#16) ∧
      s.SameButPc t ∧ s.SameButPc u) ∧
    (∃ t u, exec (.seVxVy x y) s = .next t ∧ exec (.sneVxVy x y) s = .next u ∧
      t.pc = (if s.reg x = s.reg y then s.pc + 2#16 else s.pc) ∧
      u.pc = (if s.reg x = s.reg y then s.pc else s.pc + 2#16) ∧ s.SameButPc t ∧ s.SameButPc u)

/-- R154, R155: for a key number up to 0xF, SKP skips if the input device answers that the key is down and SKNP if it answers
that it is not, whatever the answer is (a free value, log 3); above 0xF both take KeyRangeFault (the spec's decision D18). -/
def Obligations.KeySkips : Prop :=
  ∀ (x : Nibble) (s : State),
    ((s.reg x).toNat ≤ 0xF → ∃ t u, exec (.skp x) s = .next t ∧ exec (.sknp x) s = .next u ∧
      t.pc = (if Config.keyDown s.draws ((s.reg x).setWidth 4) = true then s.pc + 2#16 else s.pc) ∧
      u.pc = (if Config.keyDown s.draws ((s.reg x).setWidth 4) = true then s.pc else s.pc + 2#16) ∧
      s.SameButPc t ∧ s.SameButPc u) ∧
    ((s.reg x).toNat > 0xF → ∃ t u, exec (.skp x) s = .next t ∧ exec (.sknp x) s = .next u ∧
      s.TookFault (.keyRangeFault (s.reg x)) (.skp x) t ∧ s.TookFault (.keyRangeFault (s.reg x)) (.sknp x) u)

/-! ### Registers and ALU (43_alu.md) -/

/-- R111: the ALU's result and flag for every operation, on unbounded integers. -/
def Obligations.AluTable : Prop :=
  ∀ a b : Byte,
    alu .pass a b = ⟨b, none⟩ ∧
    ((alu .addnf a b).r.toNat = (a.toNat + b.toNat) % 256 ∧ (alu .addnf a b).f = none) ∧
    alu .or a b = ⟨a ||| b, none⟩ ∧ alu .and a b = ⟨a &&& b, none⟩ ∧ alu .xor a b = ⟨a ^^^ b, none⟩ ∧
    ((alu .add a b).r.toNat = (a.toNat + b.toNat) % 256 ∧ (alu .add a b).f = some (decide (a.toNat + b.toNat > 255))) ∧
    ((alu .sub a b).r.toNat = (if a.toNat ≥ b.toNat then a.toNat - b.toNat else a.toNat + 256 - b.toNat) ∧
      (alu .sub a b).f = some (decide (a.toNat > b.toNat))) ∧
    ((alu .subn a b).r.toNat = (if b.toNat ≥ a.toNat then b.toNat - a.toNat else b.toNat + 256 - a.toNat) ∧
      (alu .subn a b).f = some (decide (b.toNat > a.toNat))) ∧
    ((alu .shr a b).r.toNat = a.toNat / 2 ∧ (alu .shr a b).f = some (decide (a.toNat % 2 = 1))) ∧
    ((alu .shl a b).r.toNat = a.toNat * 2 % 256 ∧ (alu .shl a b).f = some (decide (a.toNat / 128 = 1))) ∧
    (flagByte true).toNat = 1 ∧ (flagByte false).toNat = 0

/-- R170, R172: LD Vx, byte and LD Vx, Vy write the byte or the register to V[x] and nothing else. -/
def Obligations.LoadsWriteVx : Prop :=
  ∀ (x y : Nibble) (kk : Byte) (s : State),
    (∃ t, exec (.ldVxByte x kk) s = .next t ∧ t.reg x = kk ∧ s.SameButRegs [x] t) ∧
    (∃ t, exec (.ldVxVy x y) s = .next t ∧ t.reg x = s.reg y ∧ s.SameButRegs [x] t)

/-- R171: ADD Vx, byte wraps modulo 256 and writes no flag: every other register, VF among them, is unchanged. -/
def Obligations.AddByteWrapsWithoutFlag : Prop :=
  ∀ (x : Nibble) (kk : Byte) (s : State),
    ∃ t, exec (.addVxByte x kk) s = .next t ∧ (t.reg x).toNat = ((s.reg x).toNat + kk.toNat) % 256 ∧
      s.SameButRegs [x] t

/-- R173, R174, R175: OR, AND and XOR combine bit by bit into V[x] and write no flag. -/
def Obligations.LogicOperations : Prop :=
  ∀ (x y : Nibble) (s : State),
    (∃ t, exec (.or x y) s = .next t ∧ t.reg x = s.reg x ||| s.reg y ∧ s.SameButRegs [x] t) ∧
    (∃ t, exec (.and x y) s = .next t ∧ t.reg x = s.reg x &&& s.reg y ∧ s.SameButRegs [x] t) ∧
    (∃ t, exec (.xor x y) s = .next t ∧ t.reg x = s.reg x ^^^ s.reg y ∧ s.SameButRegs [x] t)

/-- R176, R112: ADD Vx, Vy: the sum modulo 256 in V[x], VF 1 iff the sum exceeds 255; nothing else changes. With x = 0xF VF
ends as the flag, and the operands are those before any write (the spec's decisions D8, D9, log 15). -/
def Obligations.AddSetsCarry : Prop :=
  ∀ (x y : Nibble) (s : State),
    ∃ t, exec (.addVxVy x y) s = .next t ∧
      (x ≠ 0xF#4 → (t.reg x).toNat = ((s.reg x).toNat + (s.reg y).toNat) % 256) ∧
      (t.reg 0xF#4).toNat = (if (s.reg x).toNat + (s.reg y).toNat > 255 then 1 else 0) ∧ s.SameButRegs [x, 0xF#4] t

/-- R177, R179, R112: SUB and SUBN: the difference modulo 256 in V[x], VF 1 iff the minuend is strictly greater; nothing else
changes. With x = 0xF VF ends as the flag (the spec's decisions D8, D9, log 15). -/
def Obligations.SubtractionsSetFlag : Prop :=
  ∀ (x y : Nibble) (s : State),
    (∃ t, exec (.sub x y) s = .next t ∧
      (x ≠ 0xF#4 → (t.reg x).toNat = ((s.reg x).toNat + 256 - (s.reg y).toNat) % 256) ∧
      (t.reg 0xF#4).toNat = (if (s.reg x).toNat > (s.reg y).toNat then 1 else 0) ∧ s.SameButRegs [x, 0xF#4] t) ∧
    (∃ t, exec (.subn x y) s = .next t ∧
      (x ≠ 0xF#4 → (t.reg x).toNat = ((s.reg y).toNat + 256 - (s.reg x).toNat) % 256) ∧
      (t.reg 0xF#4).toNat = (if (s.reg y).toNat > (s.reg x).toNat then 1 else 0) ∧ s.SameButRegs [x, 0xF#4] t)

/-- R178, R180, R112: SHR and SHL shift V[x] by one bit, VF is the bit shifted out, y is ignored; nothing else changes. With
x = 0xF VF ends as the flag (the spec's decisions D8, D9, log 15). -/
def Obligations.ShiftsSetFlag : Prop :=
  ∀ (x y : Nibble) (s : State),
    (∃ t, exec (.shr x y) s = .next t ∧ (x ≠ 0xF#4 → (t.reg x).toNat = (s.reg x).toNat / 2) ∧
      (t.reg 0xF#4).toNat = (s.reg x).toNat % 2 ∧ s.SameButRegs [x, 0xF#4] t) ∧
    (∃ t, exec (.shl x y) s = .next t ∧ (x ≠ 0xF#4 → (t.reg x).toNat = (s.reg x).toNat * 2 % 256) ∧
      (t.reg 0xF#4).toNat = (s.reg x).toNat / 128 ∧ s.SameButRegs [x, 0xF#4] t)

/-- R181: RND writes the random source's answer AND kk to V[x], whatever the answer is (a free value, log 3), and nothing
else; with kk = 0 the result is 0. -/
def Obligations.RndMasksTheRandomByte : Prop :=
  ∀ (x : Nibble) (kk : Byte) (s : State),
    ∃ t, exec (.rnd x kk) s = .next t ∧ t.reg x = Config.rngByte s.draws &&& kk ∧ (kk = 0#8 → t.reg x = 0#8) ∧
      t.draws = s.draws + 1 ∧ s.SameButRegs [x] t

/-! ### Index register and memory (44_index_memory.md) -/

/-- R200, R201, R202: what LD I, ADD I (12-bit wrap, no flag) and LD F (the open parameter FONT_ADDR, log 8) leave in I, and
that nothing else changes. -/
def Obligations.IndexRegisterInstructions : Prop :=
  ∀ (x : Nibble) (nnn : Addr) (s : State),
    (∃ t, exec (.ldIAddr nnn) s = .next t ∧ t.I.toNat = nnn.toNat ∧ s.SameButI t) ∧
    (∃ t, exec (.addIVx x) s = .next t ∧ t.I.toNat = (s.I.toNat + (s.reg x).toNat) % 4096 ∧ s.SameButI t) ∧
    (∃ t, exec (.ldFVx x) s = .next t ∧ t.I.toNat = (Config.fontAddr (s.reg x)).toNat ∧ s.SameButI t)

/-- R203: LD B stores the hundreds, tens and ones of V[x] at I, I + 1 and I + 2 and nothing else; I is unchanged (digit order
and I are the spec's decisions D16, D15, log 17). -/
def Obligations.LdBStoresTheDigits : Prop :=
  ∀ (x : Nibble) (s : State), Memory.wf s.mem = true → s.base + 2 < 4096 →
    ∃ t, exec (.ldBVx x) s = .next t ∧
      (Memory.byte t.mem s.base).toNat = (s.reg x).toNat / 100 ∧
      (Memory.byte t.mem (s.base + 1)).toNat = (s.reg x).toNat / 10 % 10 ∧
      (Memory.byte t.mem (s.base + 2)).toNat = (s.reg x).toNat % 10 ∧ s.SameButBytes s.base 3 t

/-- R204: LD [I], Vx stores V0 to V[x] from I upwards and nothing else; I is unchanged (layout and I are the spec's decision
D15, log 17). -/
def Obligations.StoreRegistersAtI : Prop :=
  ∀ (x : Nibble) (s : State), Memory.wf s.mem = true → s.base + x.toNat < 4096 →
    ∃ t, exec (.ldMemIVx x) s = .next t ∧
      (∀ k : Nibble, k.toNat ≤ x.toNat → Memory.byte t.mem (s.base + k.toNat) = s.reg k) ∧
      s.SameButBytes s.base (x.toNat + 1) t

/-- R205: LD Vx, [I] loads V0 to V[x] from I upwards; the registers above x, I and everything else are unchanged (layout and
I are the spec's decision D15, log 17). -/
def Obligations.LoadRegistersFromI : Prop :=
  ∀ (x : Nibble) (s : State), s.base + x.toNat < 4096 →
    ∃ t, exec (.ldVxMemI x) s = .next t ∧
      (∀ k : Nibble, k.toNat ≤ x.toNat → t.reg k = Memory.byte s.mem (s.base + k.toNat)) ∧
      (∀ k : Nibble, x.toNat < k.toNat → t.reg k = s.reg k) ∧ t.pc = s.pc ∧ t.I = s.I ∧ s.SameStack t ∧
      s.SameTimers t ∧ s.SameMem t ∧ s.SameControl t

/-! ### Display, timers, key wait (45_timers_input_display.md) -/

/-- R220: CLS sends one clear request to the display and changes nothing of the CORE (that requests stand in `sent` is
log 11). -/
def Obligations.ClsRequestsClear : Prop :=
  ∀ s : State, ∃ t, exec .cls s = .next t ∧ t.sent = s.sent ++ [.clear] ∧ s.SameRegsBut [] t ∧ t.pc = s.pc ∧ t.I = s.I ∧
    s.SameStack t ∧ s.SameTimers t ∧ s.SameMem t ∧ t.fsm = s.fsm ∧ t.host = s.host

/-- R221: DRW sends the n bytes from I and the coordinates to the display, and VF is 1 if the display answers that a pixel
was erased, else 0, whatever the answer is (a free value, log 3); nothing else changes (n = 0 and the order are the spec's
decision D21, log 20; the old VF as a coordinate is D8, log 15). -/
def Obligations.DrwSendsTheSprite : Prop :=
  ∀ (x y n : Nibble) (s : State), (n.toNat = 0 ∨ s.base + n.toNat ≤ 4096) →
    let rows := (List.range n.toNat).map fun k => Memory.byte s.mem (s.base + k)
    ∃ t, exec (.drw x y n) s = .next t ∧ t.sent = s.sent ++ [.blit (s.reg x) (s.reg y) rows] ∧
      (t.reg 0xF#4).toNat = (if Config.blitCollided s.draws (s.reg x) (s.reg y) rows = true then 1 else 0) ∧
      s.SameRegsBut [0xF#4] t ∧ t.pc = s.pc ∧ t.I = s.I ∧ s.SameStack t ∧ s.SameTimers t ∧ s.SameMem t ∧
      t.fsm = s.fsm ∧ t.host = s.host

/-- R222, R225, R226: LD Vx, DT reads DT; LD DT, Vx and LD ST, Vx write DT and ST; nothing else changes. -/
def Obligations.TimerLoads : Prop :=
  ∀ (x : Nibble) (s : State),
    (∃ t, exec (.ldVxDt x) s = .next t ∧ t.reg x = s.DT ∧ s.SameButRegs [x] t) ∧
    (∃ t, exec (.ldDtVx x) s = .next t ∧ t.DT = s.reg x ∧ t.ST = s.ST ∧ s.SameRegsBut [] t ∧ t.pc = s.pc ∧ t.I = s.I ∧
      s.SameStack t ∧ s.SameMem t ∧ s.SameControl t) ∧
    (∃ t, exec (.ldStVx x) s = .next t ∧ t.ST = s.reg x ∧ t.DT = s.DT ∧ s.SameRegsBut [] t ∧ t.pc = s.pc ∧ t.I = s.I ∧
      s.SameStack t ∧ s.SameMem t ∧ s.SameControl t)

/-- R223: LD Vx, K enters WaitKey(x) and changes nothing else: pc stays at the next instruction and V[x] is not written yet. -/
def Obligations.LdKEntersTheWait : Prop :=
  ∀ (x : Nibble) (s : State), ∃ t, exec (.ldVxK x) s = .next t ∧ t.fsm = .waitKey x ∧ s.SameRegsBut [] t ∧ t.pc = s.pc ∧
    t.I = s.I ∧ s.SameStack t ∧ s.SameTimers t ∧ s.SameMem t ∧ t.host = s.host ∧ t.sent = s.sent

/-! ### The moves of the host (40_cycle.md) -/

/-- R115: in Ready and in WaitKey any move may come next. A schedule's first move, whichever it is, is the one taken, and the
rest of the schedule stays; where no schedule is left the move is a free value, a tick or a key press as well as a step, at
every later move again, so no fairness is built in (R288; the spec's decision D29; the schedule is log 5). -/
def Obligations.EveryMoveMayComeNext : Prop :=
  ∀ (p : Config.InvalidPolicy) (s : State) (ms : List Config.HostMove), s.fsm = .ready ∨ (∃ x, s.fsm = .waitKey x) →
    stepWith p { s with host := .tick :: ms } = .next ({ s with host := ms }.tick) ∧
    (∀ k, stepWith p { s with host := .keyPress k :: ms } = .next ({ s with host := ms }.keyPress k)) ∧
    stepWith p { s with host := .step :: ms } =
      (if s.fsm = .ready then cycle p { s with host := ms } else .next { s with host := ms }) ∧
    stepWith p { s with host := [] } = stepWith p { s with host := [Config.hostMove s.draws], draws := s.draws + 1 } ∧
    (s.host ≠ [] → s.dropMove = { s with host := s.host.tail }) ∧
    (s.host = [] → s.dropMove = { s with draws := s.draws + 1 })
end

