-- ==== Sys2Proof/Laws/Encoding.lean ====
section
/-! SUPPORT. The bit-field laws behind the encodings: what each selector mask (R77) leaves of a word written as its fields,
and which field each extraction reads. -/

namespace Sys2Proof.Laws.Encoding

theorem and_F000_nnn (h : Nibble) (l : Addr) : (h ++ l : BitVec (4+12)) &&& 0xF000#(4+12) = h ++ 0#12 := by
  have e : 0xF000#(4+12) = BitVec.allOnes 4 ++ 0#12 := rfl
  rw [e, BitVec.and_append, BitVec.and_allOnes, BitVec.and_zero]

theorem and_F000_xkk (h x : Nibble) (kk : Byte) :
    (h ++ x ++ kk : BitVec (4+4+8)) &&& 0xF000#(4+4+8) = h ++ 0#4 ++ 0#8 := by
  have e : 0xF000#(4+4+8) = BitVec.allOnes 4 ++ 0#4 ++ 0#8 := rfl
  simp only [e, BitVec.and_append, BitVec.and_allOnes, BitVec.and_zero]

theorem and_F000_xyn (h x y n : Nibble) :
    (h ++ x ++ y ++ n : BitVec (4+4+4+4)) &&& 0xF000#(4+4+4+4) = h ++ 0#4 ++ 0#4 ++ 0#4 := by
  have e : 0xF000#(4+4+4+4) = BitVec.allOnes 4 ++ 0#4 ++ 0#4 ++ 0#4 := rfl
  simp only [e, BitVec.and_append, BitVec.and_allOnes, BitVec.and_zero]

theorem and_F00F_xy (h x y l : Nibble) :
    (h ++ x ++ y ++ l : BitVec (4+4+4+4)) &&& 0xF00F#(4+4+4+4) = h ++ 0#4 ++ 0#4 ++ l := by
  have e : 0xF00F#(4+4+4+4) = BitVec.allOnes 4 ++ 0#4 ++ 0#4 ++ BitVec.allOnes 4 := rfl
  simp only [e, BitVec.and_append, BitVec.and_allOnes, BitVec.and_zero]

theorem and_F0FF_x (h x : Nibble) (l : Byte) :
    (h ++ x ++ l : BitVec (4+4+8)) &&& 0xF0FF#(4+4+8) = h ++ 0#4 ++ l := by
  have e : 0xF0FF#(4+4+8) = BitVec.allOnes 4 ++ 0#4 ++ BitVec.allOnes 8 := rfl
  simp only [e, BitVec.and_append, BitVec.and_allOnes, BitVec.and_zero]

/-! The same at the type of an opcode, the form in which `encode` writes it. -/

theorem word_and_F000_nnn (h : Nibble) (l : Addr) : ((h ++ l : Word) &&& 0xF000#16) = h ++ 0#12 := and_F000_nnn h l

theorem word_and_F000_xkk (h x : Nibble) (kk : Byte) : ((h ++ x ++ kk : Word) &&& 0xF000#16) = h ++ 0#4 ++ 0#8 :=
  and_F000_xkk h x kk

theorem word_and_F000_xyn (h x y n : Nibble) : ((h ++ x ++ y ++ n : Word) &&& 0xF000#16) = h ++ 0#4 ++ 0#4 ++ 0#4 :=
  and_F000_xyn h x y n

theorem word_and_F00F_xy (h x y l : Nibble) : ((h ++ x ++ y ++ l : Word) &&& 0xF00F#16) = h ++ 0#4 ++ 0#4 ++ l :=
  and_F00F_xy h x y l

theorem word_and_F0FF_x (h x : Nibble) (l : Byte) : ((h ++ x ++ l : Word) &&& 0xF0FF#16) = h ++ 0#4 ++ l :=
  and_F0FF_x h x l

/-! ### Payloads: what the complement of each mask leaves (R74) -/

theorem word_payload_F000_nnn (h : Nibble) (l : Addr) : ((h ++ l : Word) &&& ~~~0xF000#16) = 0#4 ++ l := by
  have e : ~~~(0xF000#(4+12)) = 0#4 ++ BitVec.allOnes 12 := rfl
  have g : (h ++ l : BitVec (4+12)) &&& ~~~0xF000#(4+12) = 0#4 ++ l := by
    rw [e, BitVec.and_append, BitVec.and_allOnes, BitVec.and_zero]
  exact g

theorem word_payload_F000_xkk (h x : Nibble) (kk : Byte) : ((h ++ x ++ kk : Word) &&& ~~~0xF000#16) = 0#4 ++ x ++ kk := by
  have e : ~~~(0xF000#(4+4+8)) = 0#4 ++ BitVec.allOnes 4 ++ BitVec.allOnes 8 := rfl
  have g : (h ++ x ++ kk : BitVec (4+4+8)) &&& ~~~0xF000#(4+4+8) = 0#4 ++ x ++ kk := by
    simp only [e, BitVec.and_append, BitVec.and_allOnes, BitVec.and_zero]
  exact g

theorem word_payload_F000_xyn (h x y n : Nibble) :
    ((h ++ x ++ y ++ n : Word) &&& ~~~0xF000#16) = 0#4 ++ x ++ y ++ n := by
  have e : ~~~(0xF000#(4+4+4+4)) = 0#4 ++ BitVec.allOnes 4 ++ BitVec.allOnes 4 ++ BitVec.allOnes 4 := rfl
  have g : (h ++ x ++ y ++ n : BitVec (4+4+4+4)) &&& ~~~0xF000#(4+4+4+4) = 0#4 ++ x ++ y ++ n := by
    simp only [e, BitVec.and_append, BitVec.and_allOnes, BitVec.and_zero]
  exact g

theorem word_payload_F00F_xy (h x y l : Nibble) :
    ((h ++ x ++ y ++ l : Word) &&& ~~~0xF00F#16) = 0#4 ++ x ++ y ++ 0#4 := by
  have e : ~~~(0xF00F#(4+4+4+4)) = 0#4 ++ BitVec.allOnes 4 ++ BitVec.allOnes 4 ++ 0#4 := rfl
  have g : (h ++ x ++ y ++ l : BitVec (4+4+4+4)) &&& ~~~0xF00F#(4+4+4+4) = 0#4 ++ x ++ y ++ 0#4 := by
    simp only [e, BitVec.and_append, BitVec.and_allOnes, BitVec.and_zero]
  exact g

theorem word_payload_F0FF_x (h x : Nibble) (l : Byte) : ((h ++ x ++ l : Word) &&& ~~~0xF0FF#16) = 0#4 ++ x ++ 0#8 := by
  have e : ~~~(0xF0FF#(4+4+8)) = 0#4 ++ BitVec.allOnes 4 ++ 0#8 := rfl
  have g : (h ++ x ++ l : BitVec (4+4+8)) &&& ~~~0xF0FF#(4+4+8) = 0#4 ++ x ++ 0#8 := by
    simp only [e, BitVec.and_append, BitVec.and_allOnes, BitVec.and_zero]
  exact g

/-! ### Fields of a word written as its fields (R71) -/

/-- The high nibble, which every selector mask covers (R77). -/
def fieldH (op : Word) : Nibble := op.extractLsb' 12 4

theorem fieldH_nnn (h : Nibble) (l : Addr) : fieldH (h ++ l : Word) = h := BitVec.extractLsb'_append_eq_left

theorem fieldNNN_nnn (h : Nibble) (l : Addr) : fieldNNN (h ++ l : Word) = l := BitVec.extractLsb'_append_eq_right

theorem fieldH_xkk (h x : Nibble) (kk : Byte) : fieldH (h ++ x ++ kk : Word) = h := by
  have g : (h ++ x ++ kk : BitVec (4+4+8)).extractLsb' 12 4 = h := by
    rw [BitVec.extractLsb'_append_eq_of_le (by decide)]; exact BitVec.extractLsb'_append_eq_left
  exact g

theorem fieldX_xkk (h x : Nibble) (kk : Byte) : fieldX (h ++ x ++ kk : Word) = x := by
  have g : (h ++ x ++ kk : BitVec (4+4+8)).extractLsb' 8 4 = x := by
    rw [BitVec.extractLsb'_append_eq_of_le (by decide)]; exact BitVec.extractLsb'_append_eq_right
  exact g

theorem fieldKK_xkk (h x : Nibble) (kk : Byte) : fieldKK (h ++ x ++ kk : Word) = kk :=
  BitVec.extractLsb'_append_eq_right

theorem fieldH_xyn (h x y n : Nibble) : fieldH (h ++ x ++ y ++ n : Word) = h := by
  have g : (h ++ x ++ y ++ n : BitVec (4+4+4+4)).extractLsb' 12 4 = h := by
    rw [BitVec.extractLsb'_append_eq_of_le (by decide), BitVec.extractLsb'_append_eq_of_le (by decide)]
    exact BitVec.extractLsb'_append_eq_left
  exact g

theorem fieldX_xyn (h x y n : Nibble) : fieldX (h ++ x ++ y ++ n : Word) = x := by
  have g : (h ++ x ++ y ++ n : BitVec (4+4+4+4)).extractLsb' 8 4 = x := by
    rw [BitVec.extractLsb'_append_eq_of_le (by decide), BitVec.extractLsb'_append_eq_of_le (by decide)]
    exact BitVec.extractLsb'_append_eq_right
  exact g

theorem fieldY_xyn (h x y n : Nibble) : fieldY (h ++ x ++ y ++ n : Word) = y := by
  have g : (h ++ x ++ y ++ n : BitVec (4+4+4+4)).extractLsb' 4 4 = y := by
    rw [BitVec.extractLsb'_append_eq_of_le (by decide)]; exact BitVec.extractLsb'_append_eq_right
  exact g

theorem fieldN_xyn (h x y n : Nibble) : fieldN (h ++ x ++ y ++ n : Word) = n := BitVec.extractLsb'_append_eq_right

/-! ### Decoding by the high nibble (R79, R80) -/

/-- A row that a word matches has the word's high nibble: every mask covers it. -/
theorem hits_fieldH {r : Row} (hr : r ∈ opcodeMap) {op : Word} (h : r.hits op = true) :
    fieldH r.pattern = fieldH op := by
  have hm : ∀ r ∈ opcodeMap, fieldH r.mask = BitVec.allOnes 4 := by decide
  have he : op &&& r.mask = r.pattern := eq_of_beq h
  rw [← he]
  show (op &&& r.mask).extractLsb' 12 4 = op.extractLsb' 12 4
  rw [BitVec.extractLsb'_and, show r.mask.extractLsb' 12 4 = BitVec.allOnes 4 from hm r hr, BitVec.and_allOnes]

/-- The rows of the opcode map with a given high nibble, in their order. -/
def rowsOf (h : Nibble) : List Row := opcodeMap.filter fun r => fieldH r.pattern == h

/-- Only the rows of its own high nibble decide what a word decodes to. -/
theorem decodeTag_rowsOf (op : Word) : decodeTag op = decodeTagIn (rowsOf (fieldH op)) op := by
  have key : ∀ rows : List Row, (∀ r ∈ rows, r ∈ opcodeMap) →
      rows.find? (fun r => r.hits op) = (rows.filter fun r => fieldH r.pattern == fieldH op).find? fun r => r.hits op := by
    intro rows
    induction rows with
    | nil => intro _; rfl
    | cons r rows ih =>
      intro hm
      have ih' := ih fun q hq => hm q (List.mem_cons_of_mem _ hq)
      by_cases hh : r.hits op = true
      · have hf := hits_fieldH (hm r List.mem_cons_self) hh
        simp [hh, hf]
      · by_cases hf : fieldH r.pattern = fieldH op
        · simp [hh, hf, ih']
        · simp [hh, hf, ih']
  simp only [decodeTag, decodeTagIn, rowsOf, key opcodeMap fun _ h => h]

/-! ### Bytes -/

/-- An opcode is its high and its low byte (R53). -/
theorem wordOfBytes_hi_lo (op : Word) : wordOfBytes (hiByte op) (loByte op) = op := by
  apply BitVec.eq_of_toNat_eq
  simp only [wordOfBytes, hiByte, loByte, BitVec.toNat_append, BitVec.extractLsb'_toNat, Nat.shiftRight_zero]
  rw [← Nat.shiftLeft_add_eq_or_of_lt (Nat.mod_lt _ (by decide)), Nat.shiftLeft_eq, Nat.shiftRight_eq_div_pow]
  have := op.isLt
  omega

/-- The decoder reads the two bytes of a word as that word. -/
theorem decode_bytes (op : Word) (rest : List Byte) : decode (hiByte op :: loByte op :: rest) = decodeWord op := by
  simp [decode, wordOfBytes_hi_lo]

end Sys2Proof.Laws.Encoding
end

