-- ==== Sys2Proof/Laws/Memory.lean ====
section
/-! SUPPORT. The laws of memory: read after write, the canonical form kept by every operation, and what the block reads and
writes do. -/

namespace Sys2Proof.Machine

/-! ### One byte -/

@[simp] theorem Memory.byte_nil (a : Nat) : Memory.byte [] a = 0#8 := rfl

theorem Memory.wfFrom_mono {lo lo' : Nat} (h : lo' ≤ lo) {m : Memory} (hm : Memory.wfFrom lo m = true) :
    Memory.wfFrom lo' m = true := by
  cases m with
  | nil => rfl
  | cons c rest =>
    obtain ⟨a, b⟩ := c
    simp only [Memory.wfFrom, Bool.and_eq_true, decide_eq_true_eq] at hm ⊢
    exact ⟨⟨⟨by omega, hm.1.1.2⟩, hm.1.2⟩, hm.2⟩

/-- Nothing is listed below the bound of a canonical memory. -/
theorem Memory.byte_below {lo : Nat} {m : Memory} (hm : Memory.wfFrom lo m = true) {a : Nat} (h : a < lo) :
    Memory.byte m a = 0#8 := by
  induction m generalizing lo with
  | nil => rfl
  | cons c rest ih =>
    obtain ⟨a', b⟩ := c
    simp only [Memory.wfFrom, Bool.and_eq_true, decide_eq_true_eq] at hm
    have hne : a ≠ a' := by omega
    simp only [Memory.byte, hne, if_false]
    exact ih hm.2 (by omega)

/-- Read after write in a canonical memory: the byte written at its address, every other byte as before. -/
theorem Memory.byte_set {lo : Nat} {m : Memory} (hm : Memory.wfFrom lo m = true) (a : Nat) (v : Byte) (a' : Nat) :
    Memory.byte (Memory.set m a v) a' = if a' = a then v else Memory.byte m a' := by
  induction m generalizing lo with
  | nil =>
    by_cases hv : v = Memory.unlisted <;> by_cases h : a' = a <;> simp_all [Memory.set, Memory.byte, Memory.unlisted]
  | cons c rest ih =>
    obtain ⟨c, b⟩ := c
    simp only [Memory.wfFrom, Bool.and_eq_true, decide_eq_true_eq] at hm
    simp only [Memory.set]
    split
    · rename_i hlt
      by_cases hv : v = Memory.unlisted
      · by_cases h : a' = a
        · subst h
          have hne : a' ≠ c := by omega
          simp [hv, Memory.byte, hne, Memory.byte_below hm.2 (show a' < c + 1 by omega), Memory.unlisted]
        · simp [hv, h]
      · by_cases h : a' = a <;> simp [hv, h, Memory.byte]
    · split
      · rename_i heq
        subst heq
        by_cases hv : v = Memory.unlisted
        · by_cases h : a' = a
          · subst h
            simp [hv, Memory.byte_below hm.2 (show a' < a' + 1 by omega), Memory.unlisted]
          · simp [hv, h, Memory.byte]
        · by_cases h : a' = a <;> simp [hv, h, Memory.byte]
      · by_cases h : a' = c
        · have hne : a' ≠ a := by omega
          simp [Memory.byte, h]
          omega
        · simp [Memory.byte, h, ih hm.2]

/-- A write keeps the canonical form (for an address in the space). -/
theorem Memory.wfFrom_set {lo : Nat} {m : Memory} (hm : Memory.wfFrom lo m = true) {a : Nat} (hlo : lo ≤ a)
    (ha : a < Config.memSize) (v : Byte) : Memory.wfFrom lo (Memory.set m a v) = true := by
  induction m generalizing lo with
  | nil => by_cases hv : v = Memory.unlisted <;> simp_all [Memory.set, Memory.wfFrom]
  | cons c rest ih =>
    obtain ⟨c, b⟩ := c
    have hm' := hm
    simp only [Memory.wfFrom, Bool.and_eq_true, decide_eq_true_eq] at hm
    obtain ⟨⟨⟨h1, h2⟩, h3⟩, h4⟩ := hm
    simp only [Memory.set]
    split
    · by_cases hv : v = Memory.unlisted
      · simpa [hv] using hm'
      · rename_i hlt
        simp only [hv, if_false, Memory.wfFrom, Bool.and_eq_true, decide_eq_true_eq, bne_iff_ne, ne_eq, not_false_eq_true]
        exact ⟨⟨⟨hlo, ha⟩, trivial⟩, ⟨⟨by omega, h2⟩, by simpa using h3⟩, h4⟩
    · split
      · rename_i heq
        subst heq
        by_cases hv : v = Memory.unlisted
        · simpa [hv] using Memory.wfFrom_mono (by omega) h4
        · simp only [hv, if_false, Memory.wfFrom, Bool.and_eq_true, decide_eq_true_eq, bne_iff_ne, ne_eq,
            not_false_eq_true]
          exact ⟨⟨⟨hlo, ha⟩, trivial⟩, h4⟩
      · simp only [Memory.wfFrom, Bool.and_eq_true, decide_eq_true_eq]
        exact ⟨⟨⟨h1, h2⟩, h3⟩, ih h4 (by omega)⟩

@[simp] theorem Memory.wf_nil : Memory.wf [] = true := rfl

theorem Memory.wf_set {m : Memory} (hm : Memory.wf m = true) {a : Nat} (ha : a < Config.memSize) (v : Byte) :
    Memory.wf (Memory.set m a v) = true :=
  Memory.wfFrom_set hm (Nat.zero_le a) ha v

/-! ### A memory given by a function -/

theorem Memory.wfFrom_ofFnFrom (f : Nat → Byte) (lo n : Nat) (h : lo + n ≤ Config.memSize) :
    Memory.wfFrom lo (Memory.ofFnFrom f lo n) = true := by
  induction n generalizing lo with
  | zero => rfl
  | succ n ih =>
    simp only [Memory.ofFnFrom]
    split
    · exact Memory.wfFrom_mono (Nat.le_succ lo) (ih (lo + 1) (by omega))
    · rename_i hv
      simp only [Memory.wfFrom, Bool.and_eq_true, decide_eq_true_eq, bne_iff_ne, ne_eq]
      exact ⟨⟨⟨Nat.le_refl lo, by omega⟩, hv⟩, ih (lo + 1) (by omega)⟩

/-- Every function of the addresses gives a canonical memory: the memory of a Faulted machine is one. -/
@[simp] theorem Memory.wf_ofFn (f : Nat → Byte) : Memory.wf (Memory.ofFn f) = true :=
  Memory.wfFrom_ofFnFrom f 0 Config.memSize (by omega)

/-! ### Reads -/

theorem memRead_ok {m : Memory} {a : Nat} (h : a < Config.memSize) : memRead m a = .ok (Memory.byte m a) := by
  simp [memRead, h]

theorem memRead_error {m : Memory} {a : Nat} (h : Config.memSize ≤ a) : memRead m a = .error a := by
  simp [memRead, Nat.not_lt.mpr h]

/-- A block inside the space is read whole, the lowest address first. -/
theorem readBytes_ok {m : Memory} {b n : Nat} (h : b + n ≤ Config.memSize) :
    readBytes m b n = .ok ((List.range' b n).map (Memory.byte m)) := by
  induction n generalizing b with
  | zero => rfl
  | succ n ih =>
    have h1 : memRead m b = .ok (Memory.byte m b) := memRead_ok (by omega)
    simp [readBytes, h1, ih (show b + 1 + n ≤ Config.memSize by omega), List.range'_succ]

/-- A block that leaves the space faults at the first address of 4096 or more. -/
theorem readBytes_error {m : Memory} {b n : Nat} (hn : n ≠ 0) (h : Config.memSize < b + n) :
    readBytes m b n = .error (max b Config.memSize) := by
  induction n generalizing b with
  | zero => exact absurd rfl hn
  | succ n ih =>
    by_cases hb : b < Config.memSize
    · have hn' : n ≠ 0 := by omega
      simp [readBytes, memRead_ok hb, ih hn' (show Config.memSize < b + 1 + n by omega)]
      omega
    · simp [readBytes, memRead_error (Nat.le_of_not_lt hb)]
      omega

/-! ### Writes -/

theorem memWrite_ok {m : Memory} {a : Nat} (h : a < Config.memSize) (v : Byte) :
    memWrite m a v = .ok (Memory.set m a v) := by
  simp [memWrite, h]

theorem memWrite_error {m : Memory} {a : Nat} (h : Config.memSize ≤ a) (v : Byte) : memWrite m a v = .error a := by
  simp [memWrite, Nat.not_lt.mpr h]

theorem writeBytes_ok {m : Memory} {b : Nat} {vs : List Byte} (h : b + vs.length ≤ Config.memSize) :
    writeBytes m b vs = .ok (Memory.setFrom m b vs) := by
  induction vs generalizing m b with
  | nil => rfl
  | cons v vs ih =>
    simp only [List.length_cons] at h
    simp [writeBytes, memWrite_ok (show b < Config.memSize by omega), Memory.setFrom, ih (show b + 1 + vs.length ≤ Config.memSize by omega)]

theorem writeBytes_error {m : Memory} {b : Nat} {vs : List Byte} (hn : vs ≠ []) (h : Config.memSize < b + vs.length) :
    writeBytes m b vs = .error (max b Config.memSize) := by
  induction vs generalizing m b with
  | nil => exact absurd rfl hn
  | cons v vs ih =>
    simp only [List.length_cons] at h
    by_cases hb : b < Config.memSize
    · have hn' : vs ≠ [] := by intro e; simp [e] at h; omega
      simp [writeBytes, memWrite_ok hb, ih hn' (show Config.memSize < b + 1 + vs.length by omega)]
      omega
    · simp [writeBytes, memWrite_error (Nat.le_of_not_lt hb)]
      omega

/-- A block write keeps the canonical form. -/
theorem Memory.wf_setFrom {m : Memory} (hm : Memory.wf m = true) {b : Nat} {vs : List Byte}
    (h : b + vs.length ≤ Config.memSize) : Memory.wf (Memory.setFrom m b vs) = true := by
  induction vs generalizing m b with
  | nil => exact hm
  | cons v vs ih =>
    simp only [List.length_cons] at h
    exact ih (Memory.wf_set hm (by omega) v) (by omega)

/-- What a block write leaves at each address. -/
theorem Memory.byte_setFrom {m : Memory} (hm : Memory.wf m = true) {b : Nat} {vs : List Byte}
    (h : b + vs.length ≤ Config.memSize) (a : Nat) :
    Memory.byte (Memory.setFrom m b vs) a = if b ≤ a then (vs[a - b]?).getD (Memory.byte m a) else Memory.byte m a := by
  induction vs generalizing m b with
  | nil => simp [Memory.setFrom]
  | cons v vs ih =>
    simp only [List.length_cons] at h
    rw [Memory.setFrom, ih (Memory.wf_set hm (by omega) v) (by omega), Memory.byte_set hm]
    by_cases h1 : a = b
    · subst h1; simp
    · by_cases h2 : b + 1 ≤ a
      · have h3 : a - b = (a - (b + 1)) + 1 := by omega
        simp [h1, h2, show b ≤ a by omega, h3]
      · simp [h1, h2, show ¬ b ≤ a by omega]

/-- A write of two bytes keeps the canonical form. -/
theorem Memory.wf_setWord {m : Memory} (hm : Memory.wf m = true) {a : Nat} (ha : a + 1 < Config.memSize) (op : Word) :
    Memory.wf (Memory.setWord m a op) = true :=
  Memory.wf_set (Memory.wf_set hm (by omega) _) ha _

/-- A successful block write keeps the canonical form. -/
theorem writeBytes_wf {m m' : Memory} (hm : Memory.wf m = true) {b : Nat} {vs : List Byte}
    (h : writeBytes m b vs = .ok m') : Memory.wf m' = true := by
  by_cases hv : vs = []
  · subst hv; cases h; exact hm
  · by_cases hb : b + vs.length ≤ Config.memSize
    · rw [writeBytes_ok hb] at h; cases h; exact Memory.wf_setFrom hm hb
    · rw [writeBytes_error hv (by omega)] at h; cases h

/-- The font image keeps the canonical form: its addresses are 12-bit values. -/
theorem loadFont_wf {m : Memory} (hm : Memory.wf m = true) (font : List (Addr × Byte)) :
    Memory.wf (loadFont font m) = true := by
  induction font generalizing m with
  | nil => exact hm
  | cons ab font ih => exact ih (Memory.wf_set hm (show ab.1.toNat < 4096 from ab.1.isLt) _)

/-- A successful program load keeps the canonical form. -/
theorem loadProgram_wf {m m' : Memory} (hm : Memory.wf m = true) {p : List Byte} (h : loadProgram p m = some m') :
    Memory.wf m' = true := by
  unfold loadProgram at h
  split at h
  · cases h
  · cases h; exact Memory.wf_setFrom hm (by omega)

/-! ### Fetch -/

theorem fetch_ok {m : Memory} {pc : Word} (h : pc.toNat + 1 < Config.memSize) :
    fetch m pc = .ok (wordOfBytes (Memory.byte m pc.toNat) (Memory.byte m (pc.toNat + 1))) := by
  simp [fetch, memRead_ok (show pc.toNat < Config.memSize by omega), memRead_ok h]

theorem fetch_error {m : Memory} {pc : Word} (h : Config.memSize ≤ pc.toNat + 1) :
    fetch m pc = .error (max pc.toNat Config.memSize) := by
  by_cases h1 : pc.toNat < Config.memSize
  · simp [fetch, memRead_ok h1, memRead_error h]; omega
  · simp [fetch, memRead_error (Nat.le_of_not_lt h1)]; omega

end Sys2Proof.Machine
end

