-- ==== Sys2Proof/Laws/State.lean ====
section
/-! SUPPORT. One lemma per field per update of State, true by rfl, and the reads of a register after the register writes. -/

namespace Sys2Proof.Machine

@[simp] theorem State.setReg_V (x : Nibble) (v : Byte) (s : State) : (s.setReg x v).V = s.V.set x.toNat v x.isLt := rfl
@[simp] theorem State.setReg_I (x : Nibble) (v : Byte) (s : State) : (s.setReg x v).I = s.I := rfl
@[simp] theorem State.setReg_pc (x : Nibble) (v : Byte) (s : State) : (s.setReg x v).pc = s.pc := rfl
@[simp] theorem State.setReg_SP (x : Nibble) (v : Byte) (s : State) : (s.setReg x v).SP = s.SP := rfl
@[simp] theorem State.setReg_stack (x : Nibble) (v : Byte) (s : State) : (s.setReg x v).stack = s.stack := rfl
@[simp] theorem State.setReg_DT (x : Nibble) (v : Byte) (s : State) : (s.setReg x v).DT = s.DT := rfl
@[simp] theorem State.setReg_ST (x : Nibble) (v : Byte) (s : State) : (s.setReg x v).ST = s.ST := rfl
@[simp] theorem State.setReg_mem (x : Nibble) (v : Byte) (s : State) : (s.setReg x v).mem = s.mem := rfl
@[simp] theorem State.setReg_fsm (x : Nibble) (v : Byte) (s : State) : (s.setReg x v).fsm = s.fsm := rfl
@[simp] theorem State.setReg_host (x : Nibble) (v : Byte) (s : State) : (s.setReg x v).host = s.host := rfl
@[simp] theorem State.setReg_draws (x : Nibble) (v : Byte) (s : State) : (s.setReg x v).draws = s.draws := rfl
@[simp] theorem State.setReg_sent (x : Nibble) (v : Byte) (s : State) : (s.setReg x v).sent = s.sent := rfl

@[simp] theorem State.setRegsFrom0_I (bs : List Byte) (s : State) : (s.setRegsFrom0 bs).I = s.I := rfl
@[simp] theorem State.setRegsFrom0_pc (bs : List Byte) (s : State) : (s.setRegsFrom0 bs).pc = s.pc := rfl
@[simp] theorem State.setRegsFrom0_SP (bs : List Byte) (s : State) : (s.setRegsFrom0 bs).SP = s.SP := rfl
@[simp] theorem State.setRegsFrom0_stack (bs : List Byte) (s : State) : (s.setRegsFrom0 bs).stack = s.stack := rfl
@[simp] theorem State.setRegsFrom0_DT (bs : List Byte) (s : State) : (s.setRegsFrom0 bs).DT = s.DT := rfl
@[simp] theorem State.setRegsFrom0_ST (bs : List Byte) (s : State) : (s.setRegsFrom0 bs).ST = s.ST := rfl
@[simp] theorem State.setRegsFrom0_mem (bs : List Byte) (s : State) : (s.setRegsFrom0 bs).mem = s.mem := rfl
@[simp] theorem State.setRegsFrom0_fsm (bs : List Byte) (s : State) : (s.setRegsFrom0 bs).fsm = s.fsm := rfl
@[simp] theorem State.setRegsFrom0_host (bs : List Byte) (s : State) : (s.setRegsFrom0 bs).host = s.host := rfl
@[simp] theorem State.setRegsFrom0_draws (bs : List Byte) (s : State) : (s.setRegsFrom0 bs).draws = s.draws := rfl
@[simp] theorem State.setRegsFrom0_sent (bs : List Byte) (s : State) : (s.setRegsFrom0 bs).sent = s.sent := rfl

@[simp] theorem State.setFlag_I (f : Bool) (s : State) : (s.setFlag f).I = s.I := rfl
@[simp] theorem State.setFlag_pc (f : Bool) (s : State) : (s.setFlag f).pc = s.pc := rfl
@[simp] theorem State.setFlag_SP (f : Bool) (s : State) : (s.setFlag f).SP = s.SP := rfl
@[simp] theorem State.setFlag_stack (f : Bool) (s : State) : (s.setFlag f).stack = s.stack := rfl
@[simp] theorem State.setFlag_DT (f : Bool) (s : State) : (s.setFlag f).DT = s.DT := rfl
@[simp] theorem State.setFlag_ST (f : Bool) (s : State) : (s.setFlag f).ST = s.ST := rfl
@[simp] theorem State.setFlag_mem (f : Bool) (s : State) : (s.setFlag f).mem = s.mem := rfl
@[simp] theorem State.setFlag_fsm (f : Bool) (s : State) : (s.setFlag f).fsm = s.fsm := rfl
@[simp] theorem State.setFlag_host (f : Bool) (s : State) : (s.setFlag f).host = s.host := rfl
@[simp] theorem State.setFlag_draws (f : Bool) (s : State) : (s.setFlag f).draws = s.draws := rfl
@[simp] theorem State.setFlag_sent (f : Bool) (s : State) : (s.setFlag f).sent = s.sent := rfl

@[simp] theorem State.rndWith_I (r : Byte) (x : Nibble) (kk : Byte) (s : State) : (s.rndWith r x kk).I = s.I := rfl
@[simp] theorem State.rndWith_pc (r : Byte) (x : Nibble) (kk : Byte) (s : State) : (s.rndWith r x kk).pc = s.pc := rfl
@[simp] theorem State.rndWith_SP (r : Byte) (x : Nibble) (kk : Byte) (s : State) : (s.rndWith r x kk).SP = s.SP := rfl
@[simp] theorem State.rndWith_stack (r : Byte) (x : Nibble) (kk : Byte) (s : State) : (s.rndWith r x kk).stack = s.stack := rfl
@[simp] theorem State.rndWith_DT (r : Byte) (x : Nibble) (kk : Byte) (s : State) : (s.rndWith r x kk).DT = s.DT := rfl
@[simp] theorem State.rndWith_ST (r : Byte) (x : Nibble) (kk : Byte) (s : State) : (s.rndWith r x kk).ST = s.ST := rfl
@[simp] theorem State.rndWith_mem (r : Byte) (x : Nibble) (kk : Byte) (s : State) : (s.rndWith r x kk).mem = s.mem := rfl
@[simp] theorem State.rndWith_fsm (r : Byte) (x : Nibble) (kk : Byte) (s : State) : (s.rndWith r x kk).fsm = s.fsm := rfl
@[simp] theorem State.rndWith_host (r : Byte) (x : Nibble) (kk : Byte) (s : State) : (s.rndWith r x kk).host = s.host := rfl
@[simp] theorem State.rndWith_draws (r : Byte) (x : Nibble) (kk : Byte) (s : State) : (s.rndWith r x kk).draws = s.draws := rfl
@[simp] theorem State.rndWith_sent (r : Byte) (x : Nibble) (kk : Byte) (s : State) : (s.rndWith r x kk).sent = s.sent := rfl

@[simp] theorem State.advance_V (s : State) : (s.advance).V = s.V := rfl
@[simp] theorem State.advance_I (s : State) : (s.advance).I = s.I := rfl
@[simp] theorem State.advance_pc (s : State) : (s.advance).pc = s.pc + 2#16 := rfl
@[simp] theorem State.advance_SP (s : State) : (s.advance).SP = s.SP := rfl
@[simp] theorem State.advance_stack (s : State) : (s.advance).stack = s.stack := rfl
@[simp] theorem State.advance_DT (s : State) : (s.advance).DT = s.DT := rfl
@[simp] theorem State.advance_ST (s : State) : (s.advance).ST = s.ST := rfl
@[simp] theorem State.advance_mem (s : State) : (s.advance).mem = s.mem := rfl
@[simp] theorem State.advance_fsm (s : State) : (s.advance).fsm = s.fsm := rfl
@[simp] theorem State.advance_host (s : State) : (s.advance).host = s.host := rfl
@[simp] theorem State.advance_draws (s : State) : (s.advance).draws = s.draws := rfl
@[simp] theorem State.advance_sent (s : State) : (s.advance).sent = s.sent := rfl

@[simp] theorem State.skip_V (s : State) : (s.skip).V = s.V := rfl
@[simp] theorem State.skip_I (s : State) : (s.skip).I = s.I := rfl
@[simp] theorem State.skip_pc (s : State) : (s.skip).pc = s.pc + 2#16 := rfl
@[simp] theorem State.skip_SP (s : State) : (s.skip).SP = s.SP := rfl
@[simp] theorem State.skip_stack (s : State) : (s.skip).stack = s.stack := rfl
@[simp] theorem State.skip_DT (s : State) : (s.skip).DT = s.DT := rfl
@[simp] theorem State.skip_ST (s : State) : (s.skip).ST = s.ST := rfl
@[simp] theorem State.skip_mem (s : State) : (s.skip).mem = s.mem := rfl
@[simp] theorem State.skip_fsm (s : State) : (s.skip).fsm = s.fsm := rfl
@[simp] theorem State.skip_host (s : State) : (s.skip).host = s.host := rfl
@[simp] theorem State.skip_draws (s : State) : (s.skip).draws = s.draws := rfl
@[simp] theorem State.skip_sent (s : State) : (s.skip).sent = s.sent := rfl

@[simp] theorem State.drawn_V (s : State) : (s.drawn).V = s.V := rfl
@[simp] theorem State.drawn_I (s : State) : (s.drawn).I = s.I := rfl
@[simp] theorem State.drawn_pc (s : State) : (s.drawn).pc = s.pc := rfl
@[simp] theorem State.drawn_SP (s : State) : (s.drawn).SP = s.SP := rfl
@[simp] theorem State.drawn_stack (s : State) : (s.drawn).stack = s.stack := rfl
@[simp] theorem State.drawn_DT (s : State) : (s.drawn).DT = s.DT := rfl
@[simp] theorem State.drawn_ST (s : State) : (s.drawn).ST = s.ST := rfl
@[simp] theorem State.drawn_mem (s : State) : (s.drawn).mem = s.mem := rfl
@[simp] theorem State.drawn_fsm (s : State) : (s.drawn).fsm = s.fsm := rfl
@[simp] theorem State.drawn_host (s : State) : (s.drawn).host = s.host := rfl
@[simp] theorem State.drawn_draws (s : State) : (s.drawn).draws = s.draws + 1 := rfl
@[simp] theorem State.drawn_sent (s : State) : (s.drawn).sent = s.sent := rfl

@[simp] theorem State.send_V (r : Request) (s : State) : (s.send r).V = s.V := rfl
@[simp] theorem State.send_I (r : Request) (s : State) : (s.send r).I = s.I := rfl
@[simp] theorem State.send_pc (r : Request) (s : State) : (s.send r).pc = s.pc := rfl
@[simp] theorem State.send_SP (r : Request) (s : State) : (s.send r).SP = s.SP := rfl
@[simp] theorem State.send_stack (r : Request) (s : State) : (s.send r).stack = s.stack := rfl
@[simp] theorem State.send_DT (r : Request) (s : State) : (s.send r).DT = s.DT := rfl
@[simp] theorem State.send_ST (r : Request) (s : State) : (s.send r).ST = s.ST := rfl
@[simp] theorem State.send_mem (r : Request) (s : State) : (s.send r).mem = s.mem := rfl
@[simp] theorem State.send_fsm (r : Request) (s : State) : (s.send r).fsm = s.fsm := rfl
@[simp] theorem State.send_host (r : Request) (s : State) : (s.send r).host = s.host := rfl
@[simp] theorem State.send_draws (r : Request) (s : State) : (s.send r).draws = s.draws := rfl
@[simp] theorem State.send_sent (r : Request) (s : State) : (s.send r).sent = s.sent ++ [r] := rfl

@[simp] theorem State.tick_V (s : State) : (s.tick).V = s.V := rfl
@[simp] theorem State.tick_I (s : State) : (s.tick).I = s.I := rfl
@[simp] theorem State.tick_pc (s : State) : (s.tick).pc = s.pc := rfl
@[simp] theorem State.tick_SP (s : State) : (s.tick).SP = s.SP := rfl
@[simp] theorem State.tick_stack (s : State) : (s.tick).stack = s.stack := rfl
@[simp] theorem State.tick_DT (s : State) : (s.tick).DT = timerDown s.DT := rfl
@[simp] theorem State.tick_ST (s : State) : (s.tick).ST = timerDown s.ST := rfl
@[simp] theorem State.tick_mem (s : State) : (s.tick).mem = s.mem := rfl
@[simp] theorem State.tick_fsm (s : State) : (s.tick).fsm = s.fsm := rfl
@[simp] theorem State.tick_host (s : State) : (s.tick).host = s.host := rfl
@[simp] theorem State.tick_draws (s : State) : (s.tick).draws = s.draws := rfl
@[simp] theorem State.tick_sent (s : State) : (s.tick).sent = s.sent := rfl

@[simp] theorem State.dropMove_V (s : State) : (s.dropMove).V = s.V := rfl
@[simp] theorem State.dropMove_I (s : State) : (s.dropMove).I = s.I := rfl
@[simp] theorem State.dropMove_pc (s : State) : (s.dropMove).pc = s.pc := rfl
@[simp] theorem State.dropMove_SP (s : State) : (s.dropMove).SP = s.SP := rfl
@[simp] theorem State.dropMove_stack (s : State) : (s.dropMove).stack = s.stack := rfl
@[simp] theorem State.dropMove_DT (s : State) : (s.dropMove).DT = s.DT := rfl
@[simp] theorem State.dropMove_ST (s : State) : (s.dropMove).ST = s.ST := rfl
@[simp] theorem State.dropMove_mem (s : State) : (s.dropMove).mem = s.mem := rfl
@[simp] theorem State.dropMove_fsm (s : State) : (s.dropMove).fsm = s.fsm := rfl
@[simp] theorem State.dropMove_host (s : State) : (s.dropMove).host = s.host.tail := rfl
@[simp] theorem State.dropMove_draws (s : State) : (s.dropMove).draws = if s.host.isEmpty then s.draws + 1 else s.draws := rfl
@[simp] theorem State.dropMove_sent (s : State) : (s.dropMove).sent = s.sent := rfl

@[simp] theorem State.takeFault_V (r : FaultRecord) (s : State) : (s.takeFault r).V = Vector.ofFn (Config.faultedV s.draws) := rfl
@[simp] theorem State.takeFault_I (r : FaultRecord) (s : State) : (s.takeFault r).I = Config.faultedI s.draws := rfl
@[simp] theorem State.takeFault_pc (r : FaultRecord) (s : State) : (s.takeFault r).pc = Config.faultedPc s.draws := rfl
@[simp] theorem State.takeFault_SP (r : FaultRecord) (s : State) : (s.takeFault r).SP = Config.faultedSP s.draws := rfl
@[simp] theorem State.takeFault_stack (r : FaultRecord) (s : State) : (s.takeFault r).stack = Vector.ofFn (Config.faultedSlot s.draws) := rfl
@[simp] theorem State.takeFault_DT (r : FaultRecord) (s : State) : (s.takeFault r).DT = Config.faultedDT s.draws := rfl
@[simp] theorem State.takeFault_ST (r : FaultRecord) (s : State) : (s.takeFault r).ST = Config.faultedST s.draws := rfl
@[simp] theorem State.takeFault_mem (r : FaultRecord) (s : State) : (s.takeFault r).mem = Memory.ofFn (Config.faultedMem s.draws) := rfl
@[simp] theorem State.takeFault_fsm (r : FaultRecord) (s : State) : (s.takeFault r).fsm = .faulted r := rfl
@[simp] theorem State.takeFault_host (r : FaultRecord) (s : State) : (s.takeFault r).host = s.host := rfl
@[simp] theorem State.takeFault_draws (r : FaultRecord) (s : State) : (s.takeFault r).draws = s.draws + 1 := rfl
@[simp] theorem State.takeFault_sent (r : FaultRecord) (s : State) : (s.takeFault r).sent = s.sent := rfl

@[simp] theorem State.raise_mem (k : FaultKind) (i : Instr) (s : State) : (s.raise k i).mem = Memory.ofFn (Config.faultedMem s.draws) := rfl
@[simp] theorem State.raise_fsm (k : FaultKind) (i : Instr) (s : State) : (s.raise k i).fsm = .faulted ⟨k, s.pc - 2#16, some (encode i)⟩ := rfl
@[simp] theorem State.raise_host (k : FaultKind) (i : Instr) (s : State) : (s.raise k i).host = s.host := rfl
@[simp] theorem State.raise_draws (k : FaultKind) (i : Instr) (s : State) : (s.raise k i).draws = s.draws + 1 := rfl
@[simp] theorem State.raise_sent (k : FaultKind) (i : Instr) (s : State) : (s.raise k i).sent = s.sent := rfl

@[simp] theorem State.raiseFetch_mem (a : Nat) (s : State) : (s.raiseFetch a).mem = Memory.ofFn (Config.faultedMem s.draws) := rfl
@[simp] theorem State.raiseFetch_fsm (a : Nat) (s : State) : (s.raiseFetch a).fsm = .faulted ⟨.addressFault a, s.pc, none⟩ := rfl
@[simp] theorem State.raiseFetch_host (a : Nat) (s : State) : (s.raiseFetch a).host = s.host := rfl
@[simp] theorem State.raiseFetch_draws (a : Nat) (s : State) : (s.raiseFetch a).draws = s.draws + 1 := rfl
@[simp] theorem State.raiseFetch_sent (a : Nat) (s : State) : (s.raiseFetch a).sent = s.sent := rfl

@[simp] theorem State.skipIf_V (c : Bool) (s : State) : (s.skipIf c).V = s.V := rfl
@[simp] theorem State.skipIf_I (c : Bool) (s : State) : (s.skipIf c).I = s.I := rfl
@[simp] theorem State.skipIf_pc (c : Bool) (s : State) : (s.skipIf c).pc = if c then s.pc + 2#16 else s.pc := rfl
@[simp] theorem State.skipIf_SP (c : Bool) (s : State) : (s.skipIf c).SP = s.SP := rfl
@[simp] theorem State.skipIf_stack (c : Bool) (s : State) : (s.skipIf c).stack = s.stack := rfl
@[simp] theorem State.skipIf_DT (c : Bool) (s : State) : (s.skipIf c).DT = s.DT := rfl
@[simp] theorem State.skipIf_ST (c : Bool) (s : State) : (s.skipIf c).ST = s.ST := rfl
@[simp] theorem State.skipIf_mem (c : Bool) (s : State) : (s.skipIf c).mem = s.mem := rfl
@[simp] theorem State.skipIf_fsm (c : Bool) (s : State) : (s.skipIf c).fsm = s.fsm := rfl
@[simp] theorem State.skipIf_host (c : Bool) (s : State) : (s.skipIf c).host = s.host := rfl
@[simp] theorem State.skipIf_draws (c : Bool) (s : State) : (s.skipIf c).draws = s.draws := rfl
@[simp] theorem State.skipIf_sent (c : Bool) (s : State) : (s.skipIf c).sent = s.sent := rfl

@[simp] theorem State.writeBack_I (x : Nibble) (o : AluOut) (s : State) : (s.writeBack x o).I = s.I := by
  unfold State.writeBack; split <;> rfl
@[simp] theorem State.writeBack_pc (x : Nibble) (o : AluOut) (s : State) : (s.writeBack x o).pc = s.pc := by
  unfold State.writeBack; split <;> rfl
@[simp] theorem State.writeBack_SP (x : Nibble) (o : AluOut) (s : State) : (s.writeBack x o).SP = s.SP := by
  unfold State.writeBack; split <;> rfl
@[simp] theorem State.writeBack_stack (x : Nibble) (o : AluOut) (s : State) : (s.writeBack x o).stack = s.stack := by
  unfold State.writeBack; split <;> rfl
@[simp] theorem State.writeBack_DT (x : Nibble) (o : AluOut) (s : State) : (s.writeBack x o).DT = s.DT := by
  unfold State.writeBack; split <;> rfl
@[simp] theorem State.writeBack_ST (x : Nibble) (o : AluOut) (s : State) : (s.writeBack x o).ST = s.ST := by
  unfold State.writeBack; split <;> rfl
@[simp] theorem State.writeBack_mem (x : Nibble) (o : AluOut) (s : State) : (s.writeBack x o).mem = s.mem := by
  unfold State.writeBack; split <;> rfl
@[simp] theorem State.writeBack_fsm (x : Nibble) (o : AluOut) (s : State) : (s.writeBack x o).fsm = s.fsm := by
  unfold State.writeBack; split <;> rfl
@[simp] theorem State.writeBack_host (x : Nibble) (o : AluOut) (s : State) : (s.writeBack x o).host = s.host := by
  unfold State.writeBack; split <;> rfl
@[simp] theorem State.writeBack_draws (x : Nibble) (o : AluOut) (s : State) : (s.writeBack x o).draws = s.draws := by
  unfold State.writeBack; split <;> rfl
@[simp] theorem State.writeBack_sent (x : Nibble) (o : AluOut) (s : State) : (s.writeBack x o).sent = s.sent := by
  unfold State.writeBack; split <;> rfl

@[simp] theorem State.aluStep_I (op : AluOp) (x : Nibble) (b : Operand) (s : State) : (s.aluStep op x b).I = s.I := by
  unfold State.aluStep; exact State.writeBack_I ..
@[simp] theorem State.aluStep_pc (op : AluOp) (x : Nibble) (b : Operand) (s : State) : (s.aluStep op x b).pc = s.pc := by
  unfold State.aluStep; exact State.writeBack_pc ..
@[simp] theorem State.aluStep_SP (op : AluOp) (x : Nibble) (b : Operand) (s : State) : (s.aluStep op x b).SP = s.SP := by
  unfold State.aluStep; exact State.writeBack_SP ..
@[simp] theorem State.aluStep_stack (op : AluOp) (x : Nibble) (b : Operand) (s : State) : (s.aluStep op x b).stack = s.stack := by
  unfold State.aluStep; exact State.writeBack_stack ..
@[simp] theorem State.aluStep_DT (op : AluOp) (x : Nibble) (b : Operand) (s : State) : (s.aluStep op x b).DT = s.DT := by
  unfold State.aluStep; exact State.writeBack_DT ..
@[simp] theorem State.aluStep_ST (op : AluOp) (x : Nibble) (b : Operand) (s : State) : (s.aluStep op x b).ST = s.ST := by
  unfold State.aluStep; exact State.writeBack_ST ..
@[simp] theorem State.aluStep_mem (op : AluOp) (x : Nibble) (b : Operand) (s : State) : (s.aluStep op x b).mem = s.mem := by
  unfold State.aluStep; exact State.writeBack_mem ..
@[simp] theorem State.aluStep_fsm (op : AluOp) (x : Nibble) (b : Operand) (s : State) : (s.aluStep op x b).fsm = s.fsm := by
  unfold State.aluStep; exact State.writeBack_fsm ..
@[simp] theorem State.aluStep_host (op : AluOp) (x : Nibble) (b : Operand) (s : State) : (s.aluStep op x b).host = s.host := by
  unfold State.aluStep; exact State.writeBack_host ..
@[simp] theorem State.aluStep_draws (op : AluOp) (x : Nibble) (b : Operand) (s : State) : (s.aluStep op x b).draws = s.draws := by
  unfold State.aluStep; exact State.writeBack_draws ..
@[simp] theorem State.aluStep_sent (op : AluOp) (x : Nibble) (b : Operand) (s : State) : (s.aluStep op x b).sent = s.sent := by
  unfold State.aluStep; exact State.writeBack_sent ..

/-! ### Reading a register -/

@[simp] theorem State.reg_of_V_eq (s t : State) (h : t.V = s.V) (z : Nibble) : t.reg z = s.reg z := by
  unfold State.reg; simp [h]

theorem State.setReg_reg (x z : Nibble) (v : Byte) (s : State) :
    (s.setReg x v).reg z = if z = x then v else s.reg z := by
  unfold State.reg
  by_cases h : z = x
  · subst h; simp
  · have hn : ¬ x.toNat = z.toNat := fun e => h (BitVec.eq_of_toNat_eq e.symm)
    simp [h, hn]

@[simp] theorem State.setReg_reg_same (x : Nibble) (v : Byte) (s : State) : (s.setReg x v).reg x = v := by
  simp [State.setReg_reg]

@[simp] theorem State.setReg_reg_other (x z : Nibble) (v : Byte) (s : State) (h : z ≠ x) :
    (s.setReg x v).reg z = s.reg z := by
  simp [State.setReg_reg, h]

@[simp] theorem State.setFlag_reg_flag (f : Bool) (s : State) : (s.setFlag f).reg 0xF#4 = flagByte f :=
  State.setReg_reg_same ..

@[simp] theorem State.setFlag_reg_other (f : Bool) (s : State) (z : Nibble) (h : z ≠ 0xF#4) :
    (s.setFlag f).reg z = s.reg z :=
  State.setReg_reg_other _ _ _ _ h

theorem setRegsAt_get (k : Nat) (bs : List Byte) (v : Vector Byte 16) (j : Nat) (hj : j < 16) :
    (setRegsAt k bs v)[j] = if k ≤ j then (bs[j - k]?).getD v[j] else v[j] := by
  induction bs generalizing k v with
  | nil => simp [setRegsAt]
  | cons b bs ih =>
    rw [setRegsAt, ih, Vector.getElem_setIfInBounds]
    rcases Nat.lt_trichotomy k j with h | h | h
    · have h1 : j - k = (j - (k + 1)) + 1 := by omega
      simp [h1, show k + 1 ≤ j by omega, show k ≤ j by omega, show ¬ k = j by omega]
    · subst h; simp
    · simp [show ¬ k + 1 ≤ j by omega, show ¬ k ≤ j by omega, show ¬ k = j by omega]

theorem State.setRegsFrom0_reg (bs : List Byte) (s : State) (z : Nibble) :
    (s.setRegsFrom0 bs).reg z = (bs[z.toNat]?).getD (s.reg z) := by
  unfold State.reg State.setRegsFrom0; simp [setRegsAt_get]

@[simp] theorem State.rndWith_reg (r : Byte) (x z : Nibble) (kk : Byte) (s : State) :
    (s.rndWith r x kk).reg z = if z = x then r &&& kk else s.reg z :=
  State.setReg_reg ..

/-- What a write-back leaves in each register (R112): the flag in VF where there is one, else the result in `V[x]`. -/
theorem State.writeBack_reg (x z : Nibble) (o : AluOut) (s : State) :
    (s.writeBack x o).reg z =
      match o.f with
      | none => if z = x then o.r else s.reg z
      | some f => if z = 0xF#4 then flagByte f else if z = x then o.r else s.reg z := by
  cases hf : o.f with
  | none => simp [State.writeBack, hf, State.setReg_reg]
  | some f => simp [State.writeBack, hf, State.setFlag, flagReg, State.setReg_reg]

@[simp] theorem State.advance_reg (s : State) (z : Nibble) : (s.advance).reg z = s.reg z := by
  exact State.reg_of_V_eq _ _ (by simp) z
@[simp] theorem State.skip_reg (s : State) (z : Nibble) : (s.skip).reg z = s.reg z := by
  exact State.reg_of_V_eq _ _ (by simp) z
@[simp] theorem State.skipIf_reg (c : Bool) (s : State) (z : Nibble) : (s.skipIf c).reg z = s.reg z := by
  exact State.reg_of_V_eq _ _ (by simp) z
@[simp] theorem State.drawn_reg (s : State) (z : Nibble) : (s.drawn).reg z = s.reg z := by
  exact State.reg_of_V_eq _ _ (by simp) z
@[simp] theorem State.send_reg (r : Request) (s : State) (z : Nibble) : (s.send r).reg z = s.reg z := by
  exact State.reg_of_V_eq _ _ (by simp) z
@[simp] theorem State.tick_reg (s : State) (z : Nibble) : (s.tick).reg z = s.reg z := by
  exact State.reg_of_V_eq _ _ (by simp) z
@[simp] theorem State.dropMove_reg (s : State) (z : Nibble) : (s.dropMove).reg z = s.reg z := by
  exact State.reg_of_V_eq _ _ (by simp) z

end Sys2Proof.Machine
end

