-- ==== Sys2Proof/Laws/Ops.lean ====
section
/-! SUPPORT. What each shared operation can do, said once: the stack, the key test, the stores at I, the invalid word. -/

namespace Sys2Proof.Machine

/-! ### The stack (R108, R109) -/

theorem State.push_full {s : State} {v : Word} (h : s.SP.val = 16) : s.push v = none := by
  have : ¬ s.SP.val < Config.stackDepth := by simp [Config.stackDepth, h]
  simp [State.push, this]

theorem State.push_room {s : State} {v : Word} (h : s.SP.val < 16) :
    s.push v = some { s with
      stack := s.stack.set s.SP.val v h
      SP := ⟨s.SP.val + 1, Nat.succ_lt_succ h⟩ } := by
  have h' : s.SP.val < Config.stackDepth := h
  simp [State.push, h']

theorem State.pop_empty {s : State} (h : s.SP.val = 0) : s.pop = none := by
  simp [State.pop, h]

theorem State.pop_some {s : State} (h : s.SP.val ≠ 0) :
    s.pop = some (s.stack[s.SP.val - 1]'(by omega), { s with SP := ⟨s.SP.val - 1, by omega⟩ }) := by
  unfold State.pop; rw [dif_neg h]

/-! ### Key numbers (R154, R155) -/

theorem keyOf_none {b : Byte} (h : 0xF < b.toNat) : keyOf b = none := by
  simp [keyOf, Nat.not_le.mpr h]

theorem keyOf_some {b : Byte} (h : b.toNat ≤ 0xF) : keyOf b = some (b.setWidth 4) := by
  simp [keyOf, h]

/-! ### Stores at I (R203, R204) -/

theorem State.storeAtI_ok {s : State} {i : Instr} {bs : List Byte} (h : s.I.toNat + bs.length ≤ Config.memSize) :
    s.storeAtI i bs = { s with mem := Memory.setFrom s.mem s.I.toNat bs } := by
  simp [State.storeAtI, State.base, writeBytes_ok h]

theorem State.storeAtI_error {s : State} {i : Instr} {bs : List Byte} (hn : bs ≠ [])
    (h : Config.memSize < s.I.toNat + bs.length) :
    s.storeAtI i bs = s.raise (.addressFault (max s.I.toNat Config.memSize)) i := by
  simp [State.storeAtI, State.base, writeBytes_error hn h]

/-- A store at I leaves a machine with canonical memory, and I as it was, or takes a fault. -/
theorem State.storeAtI_cases (s : State) (i : Instr) (bs : List Byte) :
    (∃ m, writeBytes s.mem s.I.toNat bs = .ok m ∧ s.storeAtI i bs = { s with mem := m }) ∨
      ∃ a, s.storeAtI i bs = s.raise (.addressFault a) i := by
  unfold State.storeAtI State.base
  cases h : writeBytes s.mem s.I.toNat bs with
  | ok m => exact .inl ⟨m, rfl, rfl⟩
  | error a => exact .inr ⟨a, rfl⟩

@[simp] theorem bcdDigits_length (v : Byte) : (bcdDigits v).length = 3 := rfl

@[simp] theorem State.regsUpTo_length (s : State) (x : Nibble) : (s.regsUpTo x).length = x.toNat + 1 := by
  have h := x.isLt
  simp [State.regsUpTo]; omega

/-- Register k at position k (R204). -/
theorem State.regsUpTo_get (s : State) (x z : Nibble) (h : z.toNat ≤ x.toNat) :
    (s.regsUpTo x)[z.toNat]? = some (s.reg z) := by
  have hz := z.isLt
  unfold State.regsUpTo State.reg
  rw [List.getElem?_take_of_lt (by omega), List.getElem?_eq_getElem (by simp; omega)]
  simp

/-! ### Faults (R258) -/

@[simp] theorem State.takeFault_running (r : FaultRecord) (s : State) : (s.takeFault r).running = false := rfl

@[simp] theorem State.raise_running (k : FaultKind) (i : Instr) (s : State) : (s.raise k i).running = false := rfl

@[simp] theorem State.takeFault_wf (r : FaultRecord) (s : State) : Memory.wf (s.takeFault r).mem = true :=
  Memory.wf_ofFn _

@[simp] theorem State.raise_wf (k : FaultKind) (i : Instr) (s : State) : Memory.wf (s.raise k i).mem = true :=
  Memory.wf_ofFn _

/-- A machine that has taken a fault meets the invariant: nothing is claimed of its registers (D25). -/
theorem State.takeFault_inv (r : FaultRecord) (s : State) : (s.takeFault r).Inv :=
  ⟨Memory.wf_ofFn _, by simp⟩

theorem State.raise_inv (k : FaultKind) (i : Instr) (s : State) : (s.raise k i).Inv := State.takeFault_inv _ s

/-! ### The next move (R115) -/

theorem State.nextMove_fixed {s : State} {m : Config.HostMove} {ms : List Config.HostMove} (h : s.host = m :: ms) :
    s.nextMove = m := by
  simp [State.nextMove, h]

theorem State.nextMove_free {s : State} (h : s.host = []) : s.nextMove = Config.hostMove s.draws := by
  simp [State.nextMove, h]

/-! ### The step (R100, R101) -/

theorem stepWith_faulted {s : State} {r : FaultRecord} (p : Config.InvalidPolicy) (h : s.fsm = .faulted r) :
    stepWith p s = .fault (.halted r) := by
  simp [stepWith, h]

theorem stepWith_waitKey {s : State} {x : Nibble} (p : Config.InvalidPolicy) (h : s.fsm = .waitKey x) :
    stepWith p s = .next (match s.nextMove with
      | .tick => s.dropMove.tick
      | .keyPress k => s.dropMove.keyPress k
      | .step => s.dropMove) := by
  cases hm : s.nextMove <;> simp only [stepWith, h, hm]

theorem stepWith_ready {s : State} (p : Config.InvalidPolicy) (h : s.fsm = .ready) :
    stepWith p s = match s.nextMove with
      | .tick => .next s.dropMove.tick
      | .keyPress k => .next (s.dropMove.keyPress k)
      | .step => cycle p s.dropMove := by
  cases hm : s.nextMove <;> simp only [stepWith, h, hm]

theorem cycle_fetch_error {s : State} (p : Config.InvalidPolicy) (h : Config.memSize ≤ s.pc.toNat + 1) :
    cycle p s = .next (s.raiseFetch (max s.pc.toNat Config.memSize)) := by
  simp [cycle, fetch_error h]

theorem cycle_fetched {s : State} (p : Config.InvalidPolicy) {op : Word} (h : fetch s.mem s.pc = .ok op) :
    cycle p s = match decodeWord op with
      | .instr i => exec i s.advance
      | .rejected _ => .next (s.advance.execInvalid p op) := by
  cases hd : decodeWord op <;> simp only [cycle, h, hd]

end Sys2Proof.Machine
end

