-- ==== Sys2Proof/Laws/Exec.lean ====
section
/-! SUPPORT. The meanings that branch, as equations: one per case, on conditions of the operands. Every other meaning is an
equation by rfl. -/

namespace Sys2Proof.Machine

/-! ### Control flow -/

theorem exec_ret_some {s : State} (h : s.SP.val ≠ 0) :
    exec .ret s = .next { s with
      pc := s.stack[s.SP.val - 1]'(by omega)
      SP := ⟨s.SP.val - 1, by omega⟩ } := by
  simp only [exec, execRet, State.pop_some h]

theorem exec_ret_empty {s : State} (h : s.SP.val = 0) :
    exec .ret s = .next (s.raise (.stackUnderflow 0) .ret) := by
  simp only [exec, execRet, State.pop_empty h, h]

theorem exec_call_room {nnn : Addr} {s : State} (h : s.SP.val < 16) :
    exec (.call nnn) s = .next { s with
      pc := addrWord nnn
      SP := ⟨s.SP.val + 1, Nat.succ_lt_succ h⟩
      stack := s.stack.set s.SP.val s.pc h } := by
  simp only [exec, execCall, State.push_room h]

theorem exec_call_full {nnn : Addr} {s : State} (h : s.SP.val = 16) :
    exec (.call nnn) s = .next (s.raise (.stackOverflow 16) (.call nnn)) := by
  simp only [exec, execCall, State.push_full h, h]

/-! ### Key skips -/

theorem exec_skp_key {x : Nibble} {s : State} (h : (s.reg x).toNat ≤ 0xF) :
    exec (.skp x) s = .next (s.skipIf (Config.keyDown s.draws ((s.reg x).setWidth 4))).drawn := by
  simp only [exec, execSkp, keyOf_some h]

theorem exec_sknp_key {x : Nibble} {s : State} (h : (s.reg x).toNat ≤ 0xF) :
    exec (.sknp x) s = .next (s.skipIf (!Config.keyDown s.draws ((s.reg x).setWidth 4))).drawn := by
  simp only [exec, execSknp, keyOf_some h]

theorem exec_skp_range {x : Nibble} {s : State} (h : 0xF < (s.reg x).toNat) :
    exec (.skp x) s = .next (s.raise (.keyRangeFault (s.reg x)) (.skp x)) := by
  simp only [exec, execSkp, keyOf_none h]

theorem exec_sknp_range {x : Nibble} {s : State} (h : 0xF < (s.reg x).toNat) :
    exec (.sknp x) s = .next (s.raise (.keyRangeFault (s.reg x)) (.sknp x)) := by
  simp only [exec, execSknp, keyOf_none h]

/-! ### Memory -/

theorem exec_ldBVx_ok {x : Nibble} {s : State} (h : s.I.toNat + 2 < Config.memSize) :
    exec (.ldBVx x) s = .next { s with mem := Memory.setFrom s.mem s.I.toNat (bcdDigits (s.reg x)) } := by
  simp only [exec, execLdBVx]; rw [State.storeAtI_ok (by simp; omega)]

theorem exec_ldBVx_fault {x : Nibble} {s : State} (h : Config.memSize ≤ s.I.toNat + 2) :
    exec (.ldBVx x) s = .next (s.raise (.addressFault (max s.I.toNat Config.memSize)) (.ldBVx x)) := by
  simp only [exec, execLdBVx]; rw [State.storeAtI_error (by simp [bcdDigits]) (by simp; omega)]

theorem exec_ldMemIVx_ok {x : Nibble} {s : State} (h : s.I.toNat + x.toNat < Config.memSize) :
    exec (.ldMemIVx x) s = .next { s with mem := Memory.setFrom s.mem s.I.toNat (s.regsUpTo x) } := by
  simp only [exec, execLdMemIVx]; rw [State.storeAtI_ok (by simp; omega)]

theorem exec_ldMemIVx_fault {x : Nibble} {s : State} (h : Config.memSize ≤ s.I.toNat + x.toNat) :
    exec (.ldMemIVx x) s = .next (s.raise (.addressFault (max s.I.toNat Config.memSize)) (.ldMemIVx x)) := by
  have hn : s.regsUpTo x ≠ [] := fun e => by simpa using congrArg List.length e
  simp only [exec, execLdMemIVx]; rw [State.storeAtI_error hn (by simp; omega)]

theorem exec_ldVxMemI_ok {x : Nibble} {s : State} (h : s.I.toNat + x.toNat < Config.memSize) :
    exec (.ldVxMemI x) s =
      .next (s.setRegsFrom0 ((List.range' s.I.toNat (x.toNat + 1)).map (Memory.byte s.mem))) := by
  have h' : s.base + (x.toNat + 1) ≤ Config.memSize := h
  simp only [exec, execLdVxMemI, readBytes_ok h']; rfl

theorem exec_ldVxMemI_fault {x : Nibble} {s : State} (h : Config.memSize ≤ s.I.toNat + x.toNat) :
    exec (.ldVxMemI x) s = .next (s.raise (.addressFault (max s.I.toNat Config.memSize)) (.ldVxMemI x)) := by
  have h' : Config.memSize < s.base + (x.toNat + 1) := by unfold State.base; omega
  simp only [exec, execLdVxMemI, readBytes_error (Nat.succ_ne_zero _) h']; rfl

/-! ### DRW -/

theorem exec_drw_ok {x y n : Nibble} {s : State} (h : n.toNat = 0 ∨ s.I.toNat + n.toNat ≤ Config.memSize) :
    exec (.drw x y n) s =
      let rows := (List.range' s.I.toNat n.toNat).map (Memory.byte s.mem)
      .next (s.drawWith (Config.blitCollided s.draws (s.reg x) (s.reg y) rows) (s.reg x) (s.reg y) rows).drawn := by
  have h' : readBytes s.mem s.base n.toNat = .ok ((List.range' s.I.toNat n.toNat).map (Memory.byte s.mem)) := by
    rcases h with h | h
    · rw [h]; rfl
    · exact readBytes_ok h
  simp only [exec, execDrw, h']

theorem exec_drw_fault {x y n : Nibble} {s : State} (hn : n.toNat ≠ 0) (h : Config.memSize < s.I.toNat + n.toNat) :
    exec (.drw x y n) s = .next (s.raise (.addressFault (max s.I.toNat Config.memSize)) (.drw x y n)) := by
  have h' : Config.memSize < s.base + n.toNat := h
  simp only [exec, execDrw, readBytes_error hn h']; rfl

/-! ### The ALU around its registers -/

/-- What a register and ALU instruction leaves in each register. -/
theorem State.aluStep_reg (op : AluOp) (x z : Nibble) (b : Operand) (s : State) :
    (s.aluStep op x b).reg z =
      match (alu op (s.reg x) (b.value s)).f with
      | none => if z = x then (alu op (s.reg x) (b.value s)).r else s.reg z
      | some f => if z = 0xF#4 then flagByte f else if z = x then (alu op (s.reg x) (b.value s)).r else s.reg z := by
  cases hf : (alu op (s.reg x) (b.value s)).f <;> simp only [State.aluStep, State.writeBack_reg, hf]

/-! ### Everything `exec` can do, said once -/

/-- The state an instruction leaves when it takes no fault. -/
def complete (i : Instr) (s : State) : State :=
  match i with
  | .cls => s.send .clear
  | .ret => { s with pc := s.stack[s.SP.val - 1]'(by omega), SP := ⟨s.SP.val - 1, by omega⟩ }
  | .sys _ => s
  | .jp nnn => { s with pc := addrWord nnn }
  | .call nnn =>
    { s with
      pc := addrWord nnn
      SP := ⟨min (s.SP.val + 1) 16, by omega⟩
      stack := s.stack.setIfInBounds s.SP.val s.pc }
  | .seVxByte x kk => s.skipIf (s.reg x == kk)
  | .sneVxByte x kk => s.skipIf (s.reg x != kk)
  | .seVxVy x y => s.skipIf (s.reg x == s.reg y)
  | .ldVxByte x kk => s.aluStep .pass x (.imm kk)
  | .addVxByte x kk => s.aluStep .addnf x (.imm kk)
  | .ldVxVy x y => s.aluStep .pass x (.reg y)
  | .or x y => s.aluStep .or x (.reg y)
  | .and x y => s.aluStep .and x (.reg y)
  | .xor x y => s.aluStep .xor x (.reg y)
  | .addVxVy x y => s.aluStep .add x (.reg y)
  | .sub x y => s.aluStep .sub x (.reg y)
  | .shr x y => s.aluStep .shr x (.reg y)
  | .subn x y => s.aluStep .subn x (.reg y)
  | .shl x y => s.aluStep .shl x (.reg y)
  | .sneVxVy x y => s.skipIf (s.reg x != s.reg y)
  | .ldIAddr nnn => { s with I := addrWord nnn }
  | .jpV0Addr nnn => { s with pc := addrWord nnn + byteWord (s.reg 0#4) }
  | .rnd x kk => (s.rndWith (Config.rngByte s.draws) x kk).drawn
  | .drw x y n =>
    let rows := (List.range' s.I.toNat n.toNat).map (Memory.byte s.mem)
    (s.drawWith (Config.blitCollided s.draws (s.reg x) (s.reg y) rows) (s.reg x) (s.reg y) rows).drawn
  | .skp x => (s.skipIf (Config.keyDown s.draws ((s.reg x).setWidth 4))).drawn
  | .sknp x => (s.skipIf (!Config.keyDown s.draws ((s.reg x).setWidth 4))).drawn
  | .ldVxDt x => s.setReg x s.DT
  | .ldVxK x => { s with fsm := .waitKey x }
  | .ldDtVx x => { s with DT := s.reg x }
  | .ldStVx x => { s with ST := s.reg x }
  | .addIVx x => { s with I := BitVec.ofNat 16 ((s.I.toNat + (s.reg x).toNat) % 4096) }
  | .ldFVx x => { s with I := addrWord (Config.fontAddr (s.reg x)) }
  | .ldBVx x => { s with mem := Memory.setFrom s.mem s.I.toNat (bcdDigits (s.reg x)) }
  | .ldMemIVx x => { s with mem := Memory.setFrom s.mem s.I.toNat (s.regsUpTo x) }
  | .ldVxMemI x => s.setRegsFrom0 ((List.range' s.I.toNat (x.toNat + 1)).map (Memory.byte s.mem))

/-- What an instruction answers: the fault it takes where `faultOf` names one, else its completion. -/
def effect (i : Instr) (s : State) : State :=
  match faultOf i s with
  | some k => s.raise k i
  | none => complete i s

theorem effect_of_fault {i : Instr} {s : State} {k : FaultKind} (h : faultOf i s = some k) :
    effect i s = s.raise k i := by
  simp only [effect, h]

theorem effect_of_none {i : Instr} {s : State} (h : faultOf i s = none) : effect i s = complete i s := by
  simp only [effect, h]

theorem exec_ret_eq (s : State) : exec .ret s = .next (effect .ret s) := by
  by_cases h : s.SP.val = 0
  · rw [exec_ret_empty h, effect_of_fault (i := .ret) (s := s) (if_pos h)]
  · rw [exec_ret_some h, effect_of_none (i := .ret) (s := s) (if_neg h)]; rfl

theorem exec_call_eq (nnn : Addr) (s : State) : exec (.call nnn) s = .next (effect (.call nnn) s) := by
  by_cases h : s.SP.val = 16
  · rw [exec_call_full h, effect_of_fault (i := (.call nnn)) (s := s) (if_pos h)]
  · have h' : s.SP.val < 16 := by omega
    have hm : min (s.SP.val + 1) 16 = s.SP.val + 1 := by omega
    rw [exec_call_room h', effect_of_none (i := (.call nnn)) (s := s) (if_neg h)]
    simp only [complete, hm]
    congr 2
    simp [Vector.setIfInBounds, Vector.set, Array.setIfInBounds, h']

theorem exec_skp_eq (x : Nibble) (s : State) : exec (.skp x) s = .next (effect (.skp x) s) := by
  by_cases h : (s.reg x).toNat > 0xF
  · rw [exec_skp_range h, effect_of_fault (i := (.skp x)) (s := s) (if_pos h)]
  · rw [exec_skp_key (by omega), effect_of_none (i := (.skp x)) (s := s) (if_neg h)]; rfl

theorem exec_sknp_eq (x : Nibble) (s : State) : exec (.sknp x) s = .next (effect (.sknp x) s) := by
  by_cases h : (s.reg x).toNat > 0xF
  · rw [exec_sknp_range h, effect_of_fault (i := (.sknp x)) (s := s) (if_pos h)]
  · rw [exec_sknp_key (by omega), effect_of_none (i := (.sknp x)) (s := s) (if_neg h)]; rfl

theorem exec_ldBVx_eq (x : Nibble) (s : State) : exec (.ldBVx x) s = .next (effect (.ldBVx x) s) := by
  by_cases h : s.I.toNat + 2 ≥ 4096
  · rw [exec_ldBVx_fault h, effect_of_fault (i := (.ldBVx x)) (s := s) (if_pos h)]; rfl
  · rw [exec_ldBVx_ok (Nat.lt_of_not_le h), effect_of_none (i := (.ldBVx x)) (s := s) (if_neg h)]; rfl

theorem exec_ldMemIVx_eq (x : Nibble) (s : State) : exec (.ldMemIVx x) s = .next (effect (.ldMemIVx x) s) := by
  by_cases h : s.I.toNat + x.toNat ≥ 4096
  · rw [exec_ldMemIVx_fault h, effect_of_fault (i := (.ldMemIVx x)) (s := s) (if_pos h)]; rfl
  · rw [exec_ldMemIVx_ok (Nat.lt_of_not_le h), effect_of_none (i := (.ldMemIVx x)) (s := s) (if_neg h)]; rfl

theorem exec_ldVxMemI_eq (x : Nibble) (s : State) : exec (.ldVxMemI x) s = .next (effect (.ldVxMemI x) s) := by
  by_cases h : s.I.toNat + x.toNat ≥ 4096
  · rw [exec_ldVxMemI_fault h, effect_of_fault (i := (.ldVxMemI x)) (s := s) (if_pos h)]; rfl
  · rw [exec_ldVxMemI_ok (Nat.lt_of_not_le h), effect_of_none (i := (.ldVxMemI x)) (s := s) (if_neg h)]; rfl

theorem exec_drw_eq (x y n : Nibble) (s : State) : exec (.drw x y n) s = .next (effect (.drw x y n) s) := by
  by_cases h : n.toNat ≠ 0 ∧ s.I.toNat + n.toNat - 1 ≥ 4096
  · have h2 : Config.memSize < s.I.toNat + n.toNat := by simp only [Config.memSize]; omega
    rw [exec_drw_fault h.1 h2, effect_of_fault (i := (.drw x y n)) (s := s) (if_pos h)]; rfl
  · have h2 : n.toNat = 0 ∨ s.I.toNat + n.toNat ≤ Config.memSize := by simp only [Config.memSize]; omega
    rw [exec_drw_ok h2, effect_of_none (i := (.drw x y n)) (s := s) (if_neg h)]; rfl

/-- Everything an instruction can do: `exec` answers a next state, the fault where there is one, else the completion. -/
theorem exec_eq (i : Instr) (s : State) : exec i s = .next (effect i s) := by
  cases i with
  | ret => exact exec_ret_eq s
  | call nnn => exact exec_call_eq nnn s
  | skp x => exact exec_skp_eq x s
  | sknp x => exact exec_sknp_eq x s
  | ldBVx x => exact exec_ldBVx_eq x s
  | ldMemIVx x => exact exec_ldMemIVx_eq x s
  | ldVxMemI x => exact exec_ldVxMemI_eq x s
  | drw x y n => exact exec_drw_eq x y n s
  | _ => rfl

/-- An instruction that leaves the machine running took no fault, and its state is the completion. -/
theorem exec_running {i : Instr} {s t : State} (h : exec i s = .next t) (hr : t.running = true) :
    faultOf i s = none ∧ t = complete i s := by
  rw [exec_eq] at h
  cases h
  cases hf : faultOf i s with
  | some k => rw [effect_of_fault hf, State.raise_running] at hr; cases hr
  | none => exact ⟨rfl, effect_of_none hf⟩

end Sys2Proof.Machine
end

