-- ==== Sys2Proof/Laws/PerInstr.lean ====
section
/-! SUPPORT. Family EncodeMatches: the opcode of an instruction matches the row of the opcode map that bears its tag (R73,
R78), one lemma per instruction. -/

namespace Sys2Proof.Laws.EncodeMatches

open Sys2Proof.Laws.Encoding

/-- The row of the instruction's tag is in the opcode map and the encoded word matches it. -/
def Statement (i : Instr) : Prop :=
  ∃ r, r ∈ opcodeMap ∧ r.tag = i.tag ∧ r.hits (encode i) = true

theorem cls : Statement .cls :=
  ⟨⟨.cls, 0xFFFF#16, 0x00E0#16⟩, by decide, rfl, by decide⟩

theorem ret : Statement .ret :=
  ⟨⟨.ret, 0xFFFF#16, 0x00EE#16⟩, by decide, rfl, by decide⟩

theorem sys (nnn : Addr) : Statement (.sys nnn) :=
  ⟨⟨.sys, 0xF000#16, 0x0000#16⟩, by decide, rfl, beq_iff_eq.2 ((and_F000_nnn 0x0#4 nnn).trans rfl)⟩

theorem jp (nnn : Addr) : Statement (.jp nnn) :=
  ⟨⟨.jp, 0xF000#16, 0x1000#16⟩, by decide, rfl, beq_iff_eq.2 ((and_F000_nnn 0x1#4 nnn).trans rfl)⟩

theorem call (nnn : Addr) : Statement (.call nnn) :=
  ⟨⟨.call, 0xF000#16, 0x2000#16⟩, by decide, rfl, beq_iff_eq.2 ((and_F000_nnn 0x2#4 nnn).trans rfl)⟩

theorem seVxByte (x : Nibble) (kk : Byte) : Statement (.seVxByte x kk) :=
  ⟨⟨.seVxByte, 0xF000#16, 0x3000#16⟩, by decide, rfl, beq_iff_eq.2 ((and_F000_xkk 0x3#4 x kk).trans rfl)⟩

theorem sneVxByte (x : Nibble) (kk : Byte) : Statement (.sneVxByte x kk) :=
  ⟨⟨.sneVxByte, 0xF000#16, 0x4000#16⟩, by decide, rfl, beq_iff_eq.2 ((and_F000_xkk 0x4#4 x kk).trans rfl)⟩

theorem seVxVy (x y : Nibble) : Statement (.seVxVy x y) :=
  ⟨⟨.seVxVy, 0xF00F#16, 0x5000#16⟩, by decide, rfl, beq_iff_eq.2 ((and_F00F_xy 0x5#4 x y 0x0#4).trans rfl)⟩

theorem ldVxByte (x : Nibble) (kk : Byte) : Statement (.ldVxByte x kk) :=
  ⟨⟨.ldVxByte, 0xF000#16, 0x6000#16⟩, by decide, rfl, beq_iff_eq.2 ((and_F000_xkk 0x6#4 x kk).trans rfl)⟩

theorem addVxByte (x : Nibble) (kk : Byte) : Statement (.addVxByte x kk) :=
  ⟨⟨.addVxByte, 0xF000#16, 0x7000#16⟩, by decide, rfl, beq_iff_eq.2 ((and_F000_xkk 0x7#4 x kk).trans rfl)⟩

theorem ldVxVy (x y : Nibble) : Statement (.ldVxVy x y) :=
  ⟨⟨.ldVxVy, 0xF00F#16, 0x8000#16⟩, by decide, rfl, beq_iff_eq.2 ((and_F00F_xy 0x8#4 x y 0x0#4).trans rfl)⟩

theorem or (x y : Nibble) : Statement (.or x y) :=
  ⟨⟨.or, 0xF00F#16, 0x8001#16⟩, by decide, rfl, beq_iff_eq.2 ((and_F00F_xy 0x8#4 x y 0x1#4).trans rfl)⟩

theorem and (x y : Nibble) : Statement (.and x y) :=
  ⟨⟨.and, 0xF00F#16, 0x8002#16⟩, by decide, rfl, beq_iff_eq.2 ((and_F00F_xy 0x8#4 x y 0x2#4).trans rfl)⟩

theorem xor (x y : Nibble) : Statement (.xor x y) :=
  ⟨⟨.xor, 0xF00F#16, 0x8003#16⟩, by decide, rfl, beq_iff_eq.2 ((and_F00F_xy 0x8#4 x y 0x3#4).trans rfl)⟩

theorem addVxVy (x y : Nibble) : Statement (.addVxVy x y) :=
  ⟨⟨.addVxVy, 0xF00F#16, 0x8004#16⟩, by decide, rfl, beq_iff_eq.2 ((and_F00F_xy 0x8#4 x y 0x4#4).trans rfl)⟩

theorem sub (x y : Nibble) : Statement (.sub x y) :=
  ⟨⟨.sub, 0xF00F#16, 0x8005#16⟩, by decide, rfl, beq_iff_eq.2 ((and_F00F_xy 0x8#4 x y 0x5#4).trans rfl)⟩

theorem shr (x y : Nibble) : Statement (.shr x y) :=
  ⟨⟨.shr, 0xF00F#16, 0x8006#16⟩, by decide, rfl, beq_iff_eq.2 ((and_F00F_xy 0x8#4 x y 0x6#4).trans rfl)⟩

theorem subn (x y : Nibble) : Statement (.subn x y) :=
  ⟨⟨.subn, 0xF00F#16, 0x8007#16⟩, by decide, rfl, beq_iff_eq.2 ((and_F00F_xy 0x8#4 x y 0x7#4).trans rfl)⟩

theorem shl (x y : Nibble) : Statement (.shl x y) :=
  ⟨⟨.shl, 0xF00F#16, 0x800E#16⟩, by decide, rfl, beq_iff_eq.2 ((and_F00F_xy 0x8#4 x y 0xE#4).trans rfl)⟩

theorem sneVxVy (x y : Nibble) : Statement (.sneVxVy x y) :=
  ⟨⟨.sneVxVy, 0xF00F#16, 0x9000#16⟩, by decide, rfl, beq_iff_eq.2 ((and_F00F_xy 0x9#4 x y 0x0#4).trans rfl)⟩

theorem ldIAddr (nnn : Addr) : Statement (.ldIAddr nnn) :=
  ⟨⟨.ldIAddr, 0xF000#16, 0xA000#16⟩, by decide, rfl, beq_iff_eq.2 ((and_F000_nnn 0xA#4 nnn).trans rfl)⟩

theorem jpV0Addr (nnn : Addr) : Statement (.jpV0Addr nnn) :=
  ⟨⟨.jpV0Addr, 0xF000#16, 0xB000#16⟩, by decide, rfl, beq_iff_eq.2 ((and_F000_nnn 0xB#4 nnn).trans rfl)⟩

theorem rnd (x : Nibble) (kk : Byte) : Statement (.rnd x kk) :=
  ⟨⟨.rnd, 0xF000#16, 0xC000#16⟩, by decide, rfl, beq_iff_eq.2 ((and_F000_xkk 0xC#4 x kk).trans rfl)⟩

theorem drw (x y n : Nibble) : Statement (.drw x y n) :=
  ⟨⟨.drw, 0xF000#16, 0xD000#16⟩, by decide, rfl, beq_iff_eq.2 ((and_F000_xyn 0xD#4 x y n).trans rfl)⟩

theorem skp (x : Nibble) : Statement (.skp x) :=
  ⟨⟨.skp, 0xF0FF#16, 0xE09E#16⟩, by decide, rfl, beq_iff_eq.2 ((and_F0FF_x 0xE#4 x 0x9E#8).trans rfl)⟩

theorem sknp (x : Nibble) : Statement (.sknp x) :=
  ⟨⟨.sknp, 0xF0FF#16, 0xE0A1#16⟩, by decide, rfl, beq_iff_eq.2 ((and_F0FF_x 0xE#4 x 0xA1#8).trans rfl)⟩

theorem ldVxDt (x : Nibble) : Statement (.ldVxDt x) :=
  ⟨⟨.ldVxDt, 0xF0FF#16, 0xF007#16⟩, by decide, rfl, beq_iff_eq.2 ((and_F0FF_x 0xF#4 x 0x07#8).trans rfl)⟩

theorem ldVxK (x : Nibble) : Statement (.ldVxK x) :=
  ⟨⟨.ldVxK, 0xF0FF#16, 0xF00A#16⟩, by decide, rfl, beq_iff_eq.2 ((and_F0FF_x 0xF#4 x 0x0A#8).trans rfl)⟩

theorem ldDtVx (x : Nibble) : Statement (.ldDtVx x) :=
  ⟨⟨.ldDtVx, 0xF0FF#16, 0xF015#16⟩, by decide, rfl, beq_iff_eq.2 ((and_F0FF_x 0xF#4 x 0x15#8).trans rfl)⟩

theorem ldStVx (x : Nibble) : Statement (.ldStVx x) :=
  ⟨⟨.ldStVx, 0xF0FF#16, 0xF018#16⟩, by decide, rfl, beq_iff_eq.2 ((and_F0FF_x 0xF#4 x 0x18#8).trans rfl)⟩

theorem addIVx (x : Nibble) : Statement (.addIVx x) :=
  ⟨⟨.addIVx, 0xF0FF#16, 0xF01E#16⟩, by decide, rfl, beq_iff_eq.2 ((and_F0FF_x 0xF#4 x 0x1E#8).trans rfl)⟩

theorem ldFVx (x : Nibble) : Statement (.ldFVx x) :=
  ⟨⟨.ldFVx, 0xF0FF#16, 0xF029#16⟩, by decide, rfl, beq_iff_eq.2 ((and_F0FF_x 0xF#4 x 0x29#8).trans rfl)⟩

theorem ldBVx (x : Nibble) : Statement (.ldBVx x) :=
  ⟨⟨.ldBVx, 0xF0FF#16, 0xF033#16⟩, by decide, rfl, beq_iff_eq.2 ((and_F0FF_x 0xF#4 x 0x33#8).trans rfl)⟩

theorem ldMemIVx (x : Nibble) : Statement (.ldMemIVx x) :=
  ⟨⟨.ldMemIVx, 0xF0FF#16, 0xF055#16⟩, by decide, rfl, beq_iff_eq.2 ((and_F0FF_x 0xF#4 x 0x55#8).trans rfl)⟩

theorem ldVxMemI (x : Nibble) : Statement (.ldVxMemI x) :=
  ⟨⟨.ldVxMemI, 0xF0FF#16, 0xF065#16⟩, by decide, rfl, beq_iff_eq.2 ((and_F0FF_x 0xF#4 x 0x65#8).trans rfl)⟩

end Sys2Proof.Laws.EncodeMatches
end

