-- ==== Sys2Proof/Laws/Run.lean ====
section
/-! SUPPORT. Everything one move can do, said once, and runs of the core. -/

namespace Sys2Proof.Machine

/-- The control state an instruction leaves when it takes no fault. -/
theorem complete_fsm (i : Instr) (s : State) :
    (complete i s).fsm = match i with | .ldVxK x => .waitKey x | _ => s.fsm := by
  cases i <;> rfl

/-- The decoder rejects a word for one reason only. -/
theorem decodeWord_rejected {op : Word} {r : Reject} (h : decodeWord op = .rejected r) : r = .invalid := by
  unfold decodeWord at h
  split at h
  · cases h
  · cases h; rfl

/-- A move in Ready that is the CORE's turn is a step of R101. -/
theorem stepWith_turn {s : State} (p : Config.InvalidPolicy) (hr : s.fsm = .ready) (hm : s.nextMove = .step) :
    stepWith p s = cycle p s.dropMove := by
  rw [stepWith_ready p hr, hm]

/-- Everything a step of R101 can do: a fetch that faults, an invalid word, or an instruction. -/
theorem cycle_cases {p : Config.InvalidPolicy} {s t : State} (h : cycle p s = .next t) :
    (∃ a, fetch s.mem s.pc = .error a ∧ t = s.raiseFetch a) ∨
    (∃ op, fetch s.mem s.pc = .ok op ∧ decodeWord op = .rejected .invalid ∧ t = s.advance.execInvalid p op) ∨
    (∃ op i, fetch s.mem s.pc = .ok op ∧ decodeWord op = .instr i ∧ t = effect i s.advance) := by
  unfold cycle at h
  split at h
  · cases h; exact .inl ⟨_, ‹_›, rfl⟩
  · split at h
    · rw [exec_eq] at h
      cases h
      exact .inr (.inr ⟨_, _, ‹_›, ‹_›, rfl⟩)
    · rename_i hd
      cases h
      exact .inr (.inl ⟨_, ‹_›, decodeWord_rejected hd ▸ hd, rfl⟩)

/-- Everything a move can do: a tick, a key press, the CORE's turn in WaitKey, or a step in Ready. -/
theorem stepWith_cases {p : Config.InvalidPolicy} {s t : State} (h : stepWith p s = .next t) :
    s.running = true ∧
    ((s.nextMove = .tick ∧ t = s.dropMove.tick) ∨ (∃ k, s.nextMove = .keyPress k ∧ t = s.dropMove.keyPress k) ∨
      (s.nextMove = .step ∧ ∃ x, s.fsm = .waitKey x ∧ t = s.dropMove) ∨
      (s.nextMove = .step ∧ s.fsm = .ready ∧ cycle p s.dropMove = .next t)) := by
  cases hf : s.fsm with
  | faulted r => rw [stepWith_faulted p hf] at h; cases h
  | waitKey x =>
    refine ⟨by simp [State.running, hf], ?_⟩
    rw [stepWith_waitKey p hf] at h
    cases hm : s.nextMove <;> rw [hm] at h <;> cases h
    · exact .inr (.inr (.inl ⟨rfl, x, rfl, rfl⟩))
    · exact .inl ⟨rfl, rfl⟩
    · exact .inr (.inl ⟨_, rfl, rfl⟩)
  | ready =>
    refine ⟨by simp [State.running, hf], ?_⟩
    rw [stepWith_ready p hf] at h
    cases hm : s.nextMove <;> rw [hm] at h
    · exact .inr (.inr (.inr ⟨rfl, rfl, h⟩))
    · cases h; exact .inl ⟨rfl, rfl⟩
    · cases h; exact .inr (.inl ⟨_, rfl, rfl⟩)

/-- A run of the core is its first step and then the rest. -/
theorem run_succ (n : Nat) {s t : Sys2Proof.core.State} (h : Sys2Proof.core.step s = .next t) :
    Sys2Proof.core.run (n + 1) s = Sys2Proof.core.run n t := by
  simp only [Host.Core.run, h]

end Sys2Proof.Machine
end

