-- ==== Sys2Proof/Tests/Slice0.lean ====
section
/-! SUPPORT. Tests. Expected values are the spec's: the words from the bit patterns of R78 and the decoder vectors, the steps
from the vectors A, K, C, I, T, M of 95_test_vectors.md. Last, a witness for every statement that has hypotheses. -/

namespace Sys2Proof.Tests

open Sys2Proof Sys2Proof.Machine Sys2Proof.Claims

/-! ### Well-formedness: the one check refuses -/

theorem test_wf_refuses_sys_0E0 : Instr.wf (.sys 0x0E0#12) = false := by decide
theorem test_wf_refuses_sys_0EE : Instr.wf (.sys 0x0EE#12) = false := by decide
theorem test_wf_admits_sys_0E1 : Instr.wf (.sys 0x0E1#12) = true := by decide

/-! ### Decoding: one word for every constructor, written from R78 -/

theorem test_decode_control :
    decodeWord 0b0000000011100000#16 = .instr .cls ∧ decodeWord 0b0000000011101110#16 = .instr .ret ∧
    decodeWord 0b0000000000000000#16 = .instr (.sys 0x000#12) ∧ decodeWord 0b0000111111111111#16 = .instr (.sys 0xFFF#12) ∧
    decodeWord 0b0001001001001110#16 = .instr (.jp 0x24E#12) ∧ decodeWord 0b0010001001001110#16 = .instr (.call 0x24E#12) ∧
    decodeWord 0b1011000100100011#16 = .instr (.jpV0Addr 0x123#12) := by decide

theorem test_decode_skips :
    decodeWord 0b0011101100100010#16 = .instr (.seVxByte 0xB#4 0x22#8) ∧
    decodeWord 0b0100101100100010#16 = .instr (.sneVxByte 0xB#4 0x22#8) ∧
    decodeWord 0b0101000100100000#16 = .instr (.seVxVy 1#4 2#4) ∧
    decodeWord 0b1001101010110000#16 = .instr (.sneVxVy 0xA#4 0xB#4) ∧
    decodeWord 0b1110000110011110#16 = .instr (.skp 1#4) ∧ decodeWord 0b1110000110100001#16 = .instr (.sknp 1#4) := by
  decide

theorem test_decode_alu :
    decodeWord 0b0110101001011100#16 = .instr (.ldVxByte 0xA#4 0x5C#8) ∧
    decodeWord 0b0111111100000001#16 = .instr (.addVxByte 0xF#4 0x01#8) ∧
    decodeWord 0b1000101010110000#16 = .instr (.ldVxVy 0xA#4 0xB#4) ∧
    decodeWord 0b1000101010110001#16 = .instr (.or 0xA#4 0xB#4) ∧
    decodeWord 0b1000101010110010#16 = .instr (.and 0xA#4 0xB#4) ∧
    decodeWord 0b1000101010110011#16 = .instr (.xor 0xA#4 0xB#4) ∧
    decodeWord 0b1000101010110100#16 = .instr (.addVxVy 0xA#4 0xB#4) ∧
    decodeWord 0b1000101010110101#16 = .instr (.sub 0xA#4 0xB#4) ∧
    decodeWord 0b1000101010110110#16 = .instr (.shr 0xA#4 0xB#4) ∧
    decodeWord 0b1000101010110111#16 = .instr (.subn 0xA#4 0xB#4) ∧
    decodeWord 0b1000101010111110#16 = .instr (.shl 0xA#4 0xB#4) ∧
    decodeWord 0b1100001111111111#16 = .instr (.rnd 3#4 0xFF#8) := by decide

theorem test_decode_index_memory :
    decodeWord 0b1010001011110000#16 = .instr (.ldIAddr 0x2F0#12) ∧
    decodeWord 0b1111001000011110#16 = .instr (.addIVx 2#4) ∧ decodeWord 0b1111010000101001#16 = .instr (.ldFVx 4#4) ∧
    decodeWord 0b1111000100110011#16 = .instr (.ldBVx 1#4) ∧ decodeWord 0b1111000101010101#16 = .instr (.ldMemIVx 1#4) ∧
    decodeWord 0b1111000101100101#16 = .instr (.ldVxMemI 1#4) := by decide

theorem test_decode_display_timers_keys :
    decodeWord 0b1101000100101111#16 = .instr (.drw 1#4 2#4 0xF#4) ∧
    decodeWord 0b1111010100000111#16 = .instr (.ldVxDt 5#4) ∧ decodeWord 0b1111000100001010#16 = .instr (.ldVxK 1#4) ∧
    decodeWord 0b1111010100010101#16 = .instr (.ldDtVx 5#4) ∧ decodeWord 0b1111010100011000#16 = .instr (.ldStVx 5#4) := by
  decide

theorem test_decode_rejects :
    decodeWord 0x5121#16 = .rejected .invalid ∧ decodeWord 0x8AB8#16 = .rejected .invalid ∧
    decodeWord 0x8ABF#16 = .rejected .invalid ∧ decodeWord 0x9AB1#16 = .rejected .invalid ∧
    decodeWord 0xE19F#16 = .rejected .invalid ∧ decodeWord 0xF100#16 = .rejected .invalid ∧
    decodeWord 0xFFFF#16 = .rejected .invalid ∧ decode [0x12#8] = .rejected .truncated ∧
    decode [] = .rejected .truncated := by decide

theorem test_decode_table_word : decodeTableWord 16 0xD12F = some (.drw 1#4 2#4 0xF#4) := by decide

/-! ### One step -/

/-- Registers written to a state. -/
def put (l : List (Nibble × Byte)) (s : State) : State := l.foldl (fun s xv => s.setReg xv.1 xv.2) s

/-- A Ready state with a word at pc, in which the CORE's turn is next. -/
def ready (pc op : Word) : State := { State.reset with pc := pc, mem := Memory.setWord [] pc.toNat op, host := [.step] }

/-- The state after launch with one word at 0x200 and registers written, in which the CORE's turn is next. -/
def start (op : Word) (l : List (Nibble × Byte)) : State := put l (ready 0x200#16 op)

/-- The next state of one step. -/
def after (s : State) : Option State :=
  match step s with
  | .next t => some t
  | .fault _ | .refused _ => none

/-- Two registers and pc after one step. -/
def regsPc (x y : Nibble) (s : State) : Option (Byte × Byte × Word) :=
  (after s).map fun t => (t.reg x, t.reg y, t.pc)

/-- pc after one step. -/
def pcAfter (s : State) : Option Word := (after s).map (·.pc)

/-- The control state after one step. -/
def fsmAfter (s : State) : Option Fsm := (after s).map (·.fsm)

theorem test_A1_ld_byte : regsPc 0xA#4 0xF#4 (start 0x6A5C#16 []) = some (0x5C#8, 0x00#8, 0x202#16) := by decide
theorem test_A2_add_byte_wraps :
    regsPc 0#4 0xF#4 (start 0x70FF#16 [(0#4, 2#8), (0xF#4, 7#8)]) = some (1#8, 7#8, 0x202#16) := by decide
theorem test_A3_add_byte_to_VF : regsPc 0#4 0xF#4 (start 0x7F01#16 [(0xF#4, 0xFF#8)]) = some (0#8, 0#8, 0x202#16) := by decide
theorem test_A23_ld_reg :
    regsPc 0#4 0xF#4 (start 0x8010#16 [(1#4, 0x33#8), (0xF#4, 1#8)]) = some (0x33#8, 1#8, 0x202#16) := by decide
theorem test_A24_or :
    regsPc 0#4 0xF#4 (start 0x8011#16 [(0#4, 2#8), (1#4, 0xA1#8), (0xF#4, 5#8)]) = some (0xA3#8, 5#8, 0x202#16) := by decide
theorem test_A25_and :
    regsPc 0#4 0xF#4 (start 0x8012#16 [(0#4, 0xF0#8), (1#4, 0x3C#8), (0xF#4, 5#8)]) = some (0x30#8, 5#8, 0x202#16) := by
  decide
theorem test_A26_xor :
    regsPc 0#4 0xF#4 (start 0x8013#16 [(0#4, 0xF0#8), (1#4, 0x3C#8), (0xF#4, 5#8)]) = some (0xCC#8, 5#8, 0x202#16) := by
  decide
theorem test_A7_add_same_register : regsPc 0#4 0xF#4 (start 0x8004#16 [(0#4, 0x90#8)]) = some (0x20#8, 1#8, 0x202#16) := by
  decide
theorem test_A8_add_to_VF :
    regsPc 1#4 0xF#4 (start 0x8F14#16 [(0xF#4, 0xFF#8), (1#4, 1#8)]) = some (1#8, 1#8, 0x202#16) := by decide
theorem test_A10_sub_equal :
    regsPc 0#4 0xF#4 (start 0x8015#16 [(0#4, 3#8), (1#4, 3#8)]) = some (0#8, 0#8, 0x202#16) := by decide
theorem test_A11_sub_borrow :
    regsPc 0#4 0xF#4 (start 0x8015#16 [(0#4, 3#8), (1#4, 5#8)]) = some (0xFE#8, 0#8, 0x202#16) := by decide
theorem test_A13_subn :
    regsPc 0#4 0xF#4 (start 0x8017#16 [(0#4, 3#8), (1#4, 5#8)]) = some (2#8, 1#8, 0x202#16) := by decide
theorem test_A15_subn_borrow :
    regsPc 0#4 0xF#4 (start 0x8017#16 [(0#4, 5#8), (1#4, 3#8)]) = some (0xFE#8, 0#8, 0x202#16) := by decide
theorem test_A17_shr : regsPc 0#4 0xF#4 (start 0x8006#16 [(0#4, 0x81#8)]) = some (0x40#8, 1#8, 0x202#16) := by decide
theorem test_A18_shr_ignores_y :
    regsPc 0#4 0xF#4 (start 0x8016#16 [(0#4, 2#8), (1#4, 0xFF#8)]) = some (1#8, 0#8, 0x202#16) := by decide
theorem test_A20_shl : regsPc 0#4 0xF#4 (start 0x800E#16 [(0#4, 0x81#8)]) = some (2#8, 1#8, 0x202#16) := by decide
theorem test_A22_shl_of_VF : regsPc 0#4 0xF#4 (start 0x8F0E#16 [(0xF#4, 0x81#8)]) = some (0#8, 1#8, 0x202#16) := by decide
theorem test_A27_rnd_masks : (State.rndWith 0xAB#8 3#4 0x0F#8 State.reset).reg 3#4 = 0x0B#8 := by decide
theorem test_A29_rnd_zero_mask (r : Byte) : r &&& 0x00#8 = 0x00#8 := by simp

theorem test_C1_jp : pcAfter (start 0x124E#16 []) = some 0x24E#16 := by decide
theorem test_C2_call : ((after (start 0x224E#16 [])).map fun t => (t.pc, t.SP, t.stack[0])) =
    some (0x24E#16, 1, 0x202#16) := by decide
theorem test_C3_ret : ((after { start 0x00EE#16 [] with SP := 1, stack := State.reset.stack.set 0 0x204#16 }).map
    fun t => (t.pc, t.SP, t.stack[0])) = some (0x204#16, 0, 0x204#16) := by decide
theorem test_C4_call_full : fsmAfter { start 0x2300#16 [] with SP := 16 } =
    some (.faulted ⟨.stackOverflow 16, 0x200#16, some 0x2300#16⟩) := by decide
theorem test_C5_ret_empty : fsmAfter (start 0x00EE#16 []) =
    some (.faulted ⟨.stackUnderflow 0, 0x200#16, some 0x00EE#16⟩) := by decide
theorem test_C6_jp_V0 : pcAfter (start 0xB300#16 [(0#4, 0x10#8)]) = some 0x310#16 := by decide
theorem test_C7_jp_V0_no_wrap : pcAfter (start 0xBFFF#16 [(0#4, 0xFF#8)]) = some 0x10FE#16 := by decide
theorem test_C8_sys : fsmAfter (start 0x0123#16 []) =
    some (.faulted ⟨.unsupportedOpcode, 0x200#16, some 0x0123#16⟩) := by decide
theorem test_C10_odd_pc : pcAfter (ready 0x201#16 0x1206#16) = some 0x206#16 := by decide

theorem test_K1_se : pcAfter (start 0x3B22#16 [(0xB#4, 0x22#8)]) = some 0x204#16 := by decide
theorem test_K2_se_not : pcAfter (start 0x3B22#16 [(0xB#4, 0x21#8)]) = some 0x202#16 := by decide
theorem test_K3_sne : pcAfter (start 0x4B22#16 [(0xB#4, 0x21#8)]) = some 0x204#16 := by decide
theorem test_K4_sne_not : pcAfter (start 0x4B22#16 [(0xB#4, 0x22#8)]) = some 0x202#16 := by decide
theorem test_K5_se_reg : pcAfter (start 0x5120#16 [(1#4, 5#8), (2#4, 5#8)]) = some 0x204#16 := by decide
theorem test_K6_se_reg_not : pcAfter (start 0x5120#16 [(1#4, 5#8), (2#4, 6#8)]) = some 0x202#16 := by decide
theorem test_K7_sne_reg : pcAfter (start 0x9120#16 [(1#4, 5#8), (2#4, 6#8)]) = some 0x204#16 := by decide
theorem test_K8_sne_reg_not : pcAfter (start 0x9120#16 [(1#4, 5#8), (2#4, 5#8)]) = some 0x202#16 := by decide
theorem test_K13_skp_in_range : fsmAfter (start 0xE09E#16 [(0#4, 0x0F#8)]) = some .ready := by decide
theorem test_K14_skp_range : fsmAfter (start 0xE09E#16 [(0#4, 0x10#8)]) =
    some (.faulted ⟨.keyRangeFault 0x10#8, 0x200#16, some 0xE09E#16⟩) := by decide
theorem test_sknp_in_range : fsmAfter (start 0xE0A1#16 [(0#4, 0x0F#8)]) = some .ready := by decide
theorem test_K15_sknp_range : fsmAfter (start 0xE0A1#16 [(0#4, 0x10#8)]) =
    some (.faulted ⟨.keyRangeFault 0x10#8, 0x200#16, some 0xE0A1#16⟩) := by decide
theorem test_K17_skip_leaves_memory : pcAfter (ready 0xFFE#16 0x3000#16) = some 0x1002#16 := by decide

/-- Three bytes of memory from an address, and I, after one step. -/
def memI (a : Nat) (s : State) : Option (List Byte × Word) :=
  (after s).map fun t => ([Memory.byte t.mem a, Memory.byte t.mem (a + 1), Memory.byte t.mem (a + 2)], t.I)

theorem test_I1_ld_I : ((after (start 0xA2F0#16 [])).map (·.I)) = some 0x2F0#16 := by decide
theorem test_I2_add_I : ((after { start 0xF21E#16 [(2#4, 0x10#8)] with I := 0x300#16 }).map (·.I)) = some 0x310#16 := by decide
theorem test_I3_add_I_wraps : ((after { start 0xF01E#16 [(0#4, 2#8)] with I := 0xFFF#16 }).map fun t => (t.I, t.reg 0xF#4)) =
    some (0x001#16, 0#8) := by decide
theorem test_I4_ld_F : fsmAfter (start 0xF429#16 [(4#4, 0xA#8)]) = some .ready := by decide
theorem test_I5_ld_B : memI 0x300 { start 0xF133#16 [(1#4, 0x9C#8)] with I := 0x300#16 } =
    some ([1#8, 5#8, 6#8], 0x300#16) := by decide
theorem test_M4_ld_B_fault : fsmAfter { start 0xF033#16 [(0#4, 0xFF#8)] with I := 0xFFE#16 } =
    some (.faulted ⟨.addressFault 0x1000, 0x200#16, some 0xF033#16⟩) := by decide
theorem test_I8_store : memI 0x400 { start 0xF155#16 [(0#4, 0x11#8), (1#4, 0x22#8), (2#4, 0x33#8)] with I := 0x400#16 } =
    some ([0x11#8, 0x22#8, 0#8], 0x400#16) := by decide
theorem test_M7_store_fault : fsmAfter { start 0xFF55#16 [] with I := 0xFF1#16 } =
    some (.faulted ⟨.addressFault 0x1000, 0x200#16, some 0xFF55#16⟩) := by decide
theorem test_I11_load : ((after { start 0xFF65#16 [(2#4, 9#8)] with I := 0x200#16 }).map
    fun t => (t.reg 0#4, t.reg 1#4, t.reg 2#4, t.I)) = some (0xFF#8, 0x65#8, 0#8, 0x200#16) := by decide
theorem test_M8_load_fault : fsmAfter { start 0xFF65#16 [] with I := 0xFF1#16 } =
    some (.faulted ⟨.addressFault 0x1000, 0x200#16, some 0xFF65#16⟩) := by decide

theorem test_T1_ld_Vx_DT : ((after { start 0xF507#16 [] with DT := 0x3C#8 }).map (·.reg 5#4)) = some 0x3C#8 := by decide
theorem test_T2_ld_DT : ((after (start 0xF515#16 [(5#4, 0x3C#8)])).map fun t => (t.DT, t.ST)) = some (0x3C#8, 0#8) := by decide
theorem test_T3_ld_ST : ((after (start 0xF518#16 [(5#4, 0x3C#8)])).map fun t => (t.DT, t.ST)) = some (0#8, 0x3C#8) := by decide
theorem test_T5_tick : ((after { start 0x1200#16 [] with ST := 0xFF#8, host := [.tick] }).map
    fun t => (t.DT, t.ST, t.pc)) = some (0#8, 0xFE#8, 0x200#16) := by decide
theorem test_T6_key_in_ready : after { start 0x1200#16 [] with host := [.keyPress 5#4] } =
    some { start 0x1200#16 [] with host := [] } := by decide
theorem test_T7_key_wait : ((after (start 0xF30A#16 [(3#4, 9#8)])).map fun t => (t.fsm, t.pc, t.reg 3#4)) =
    some (.waitKey 3#4, 0x202#16, 9#8) := by decide
theorem test_T9_key_press : ((after { start 0#16 [] with pc := 0x202#16, fsm := .waitKey 3#4, host := [.keyPress 7#4] }).map
    fun t => (t.reg 3#4, t.fsm, t.pc)) = some (7#8, .ready, 0x202#16) := by decide
theorem test_T11_cls : ((after (start 0x00E0#16 [])).map fun t => (t.sent, t.pc)) = some ([.clear], 0x202#16) := by decide
theorem test_T13_T14_drw :
    (State.drawWith true 0#8 0#8 [0xF0#8] State.reset).reg 0xF#4 = 1#8 ∧
    (State.drawWith false 0#8 0#8 [0xF0#8] State.reset).reg 0xF#4 = 0#8 ∧
    ((after { start 0xDF12#16 [(0xF#4, 8#8), (1#4, 4#8)] with I := 0x200#16 }).map (·.sent)) =
      some [.blit 8#8 4#8 [0xDF#8, 0x12#8]] := by decide

theorem test_M1_fetch_fault : fsmAfter { start 0#16 [] with pc := 0xFFF#16 } =
    some (.faulted ⟨.addressFault 0x1000, 0xFFF#16, none⟩) := by decide
theorem test_M3_fetch_fault : fsmAfter { start 0#16 [] with pc := 0x10FE#16 } =
    some (.faulted ⟨.addressFault 0x10FE, 0x10FE#16, none⟩) := by decide
theorem test_M9_drw_fault : ((after { start 0xD003#16 [] with I := 0xFFE#16 }).map fun t => (t.fsm, t.sent)) =
    some (.faulted ⟨.addressFault 0x1000, 0x200#16, some 0xD003#16⟩, []) := by decide
theorem test_P5_invalid_fatal : fsmAfter (start 0x5121#16 []) =
    some (.faulted ⟨.decodeMiss, 0x200#16, some 0x5121#16⟩) := by decide
theorem test_P5_invalid_skip : stepWith .skip (start 0x5121#16 []) =
    .next { start 0x5121#16 [] with pc := 0x202#16, host := [], sent := [.diagnostic 0x200#16 0x5121#16] } := by rfl

theorem test_launch : (match State.reset.launch [(0x050#12, 0xF0#8)] [0x12#8, 0x4E#8] with
    | .started t => (t.pc, Memory.byte t.mem 0x50, Memory.byte t.mem 0x200, Memory.byte t.mem 0x201)
    | .loadFault _ => (0#16, 0#8, 0#8, 0#8)) = (0x200#16, 0xF0#8, 0x12#8, 0x4E#8) := by decide

/-! ### Witnesses: a state and operands that meet the hypotheses of each statement that has them -/

theorem witness_DecodeOfEncodeIsTheInstruction :
    Instr.wf (.sys 0x0DF#12) = true ∧ Instr.wf (.sys 0xFFF#12) = true ∧ Instr.wf (.drw 0xF#4 0xF#4 0xF#4) = true := by decide

theorem witness_EncodeOfDecodeIsTheWord :
    decodeWord 0x0FFF#16 = .instr (.sys 0xFFF#12) ∧ decodeWord 0xFF65#16 = .instr (.ldVxMemI 0xF#4) := by decide

theorem witness_FirstMatchingRowWins :
    (∃ pre post r, opcodeMap = pre ++ r :: post ∧ 0x00E1#16 &&& r.mask = r.pattern ∧
      ∀ q ∈ pre, 0x00E1#16 &&& q.mask ≠ q.pattern) ∧
    ∀ r ∈ opcodeMap, 0x5121#16 &&& r.mask ≠ r.pattern :=
  ⟨⟨opcodeMap.take 2, opcodeMap.drop 3, ⟨.sys, 0xF000#16, 0x0000#16⟩, by decide, by decide, by decide⟩, by decide⟩

theorem witness_RowOrderMattersForSysOnly :
    (∃ rows, rows.Perm opcodeMap ∧ rows ≠ opcodeMap ∧ Before rows .cls .sys ∧ Before rows .ret .sys) ∧
    ∃ q r, q ∈ opcodeMap ∧ r ∈ opcodeMap ∧ q.hits 0x00E0#16 = true ∧ r.hits 0x00E0#16 = true ∧ q ≠ r :=
  ⟨⟨⟨.ret, 0xFFFF#16, 0x00EE#16⟩ :: ⟨.cls, 0xFFFF#16, 0x00E0#16⟩ :: opcodeMap.drop 2, List.Perm.swap _ _ _, by decide,
      ⟨[⟨.ret, 0xFFFF#16, 0x00EE#16⟩], [], opcodeMap.drop 3, ⟨.cls, 0xFFFF#16, 0x00E0#16⟩, ⟨.sys, 0xF000#16, 0x0000#16⟩,
        by decide, rfl, rfl⟩,
      ⟨[], [⟨.cls, 0xFFFF#16, 0x00E0#16⟩], opcodeMap.drop 3, ⟨.ret, 0xFFFF#16, 0x00EE#16⟩, ⟨.sys, 0xF000#16, 0x0000#16⟩,
        by decide, rfl, rfl⟩⟩,
    ⟨⟨.cls, 0xFFFF#16, 0x00E0#16⟩, ⟨.sys, 0xF000#16, 0x0000#16⟩, by decide⟩⟩

theorem witness_PayloadFieldsAreOpcodeFields : (decodeTag 0x7F01#16).1 ∈ xkkTags := by decide

theorem witness_StepFetchesDecodesAdvancesExecutes :
    ((ready 0xFFF#16 0#16).fsm = .ready ∧ (ready 0xFFF#16 0#16).nextMove = .step ∧
      fetch (ready 0xFFF#16 0#16).mem 0xFFF#16 = .error 4096) ∧
    (fetch (ready 0xFFE#16 0x6A5C#16).mem 0xFFE#16 = .ok 0x6A5C#16 ∧
      decodeWord 0x6A5C#16 = .instr (.ldVxByte 0xA#4 0x5C#8)) ∧
    (fetch (ready 0x200#16 0x5121#16).mem 0x200#16 = .ok 0x5121#16 ∧ decodeWord 0x5121#16 = .rejected .invalid) :=
  ⟨⟨rfl, rfl, rfl⟩, ⟨rfl, by decide⟩, ⟨rfl, by decide⟩⟩

theorem witness_StepRunsTheInstructionAtPc :
    (ready 0xFFE#16 0x6A5C#16).fsm = .ready ∧ (ready 0xFFE#16 0x6A5C#16).nextMove = .step ∧
    (ready 0xFFE#16 0x6A5C#16).pc.toNat + 1 < 4096 ∧
    decode (bytesAtPc (ready 0xFFE#16 0x6A5C#16)) = .instr (.ldVxByte 0xA#4 0x5C#8) ∧
    decode (bytesAtPc (ready 0x201#16 0x6A5C#16)) = .instr (.ldVxByte 0xA#4 0x5C#8) := by decide

theorem witness_FetchOutsideMemoryFaults :
    (ready 0xFFF#16 0#16).fsm = .ready ∧ (ready 0xFFF#16 0#16).nextMove = .step ∧
    4095 ≤ (ready 0xFFF#16 0#16).pc.toNat ∧ 4095 ≤ (ready 0x1000#16 0#16).pc.toNat := by decide

theorem witness_InvalidWordFollowsThePolicy :
    (ready 0x200#16 0x5121#16).fsm = .ready ∧ (ready 0x200#16 0x5121#16).nextMove = .step ∧
    fetch (ready 0x200#16 0x5121#16).mem (ready 0x200#16 0x5121#16).pc = .ok 0x5121#16 ∧
    decodeWord 0x5121#16 = .rejected .invalid := ⟨rfl, rfl, rfl, by decide⟩

theorem witness_FaultedIsTerminal :
    { State.reset with fsm := .faulted ⟨.unsupportedOpcode, 0x200#16, some 0#16⟩ }.fsm =
      .faulted ⟨.unsupportedOpcode, 0x200#16, some 0#16⟩ := rfl

/-- A machine in the key wait of register 3, with a schedule. -/
def waiting (h : List Config.HostMove) : State := { State.reset with fsm := .waitKey 3#4, host := h }

theorem witness_KeyWaitHoldsTheCore :
    (waiting []).fsm = .waitKey 3#4 ∧ (waiting [.step]).nextMove = .step ∧ (waiting [.tick]).nextMove = .tick ∧
    (waiting [.keyPress 7#4]).nextMove = .keyPress 7#4 := by decide

theorem witness_KeyPressEndsTheWaitOnly :
    (waiting [.keyPress 0xF#4]).nextMove = .keyPress 0xF#4 ∧ (waiting [.keyPress 0xF#4]).fsm = .waitKey 3#4 ∧
    { State.reset with host := [.keyPress 5#4] }.nextMove = .keyPress 5#4 ∧
    { State.reset with host := [.keyPress 5#4] }.fsm = .ready := by decide

theorem witness_TickCountsTimersDown :
    (waiting [.tick]).running = true ∧ (waiting [.tick]).nextMove = .tick ∧
    { State.reset with host := [.tick] }.running = true ∧ { State.reset with host := [.tick] }.nextMove = .tick := by decide

theorem witness_OnlyTheseTransitions :
    (State.reset.fsm = .ready ∧ (waiting []).fsm = .waitKey 3#4) ∧
    (∃ t, stepWith .fatal (ready 0x200#16 0xF30A#16) = .next t ∧ t.fsm = .waitKey 3#4) ∧
    (∃ t, stepWith .fatal (ready 0x200#16 0x0000#16) = .next t ∧ t.running = false) ∧
    (∃ t, stepWith .fatal { State.reset with host := [.tick] } = .next t) ∧
    (∃ t, stepWith .fatal (waiting [.keyPress 7#4]) = .next t) ∧ ∃ t, stepWith .fatal (waiting [.tick]) = .next t :=
  ⟨⟨rfl, rfl⟩, ⟨_, rfl, rfl⟩, ⟨_, rfl, rfl⟩, ⟨_, rfl⟩, ⟨_, rfl⟩, ⟨_, rfl⟩⟩

theorem witness_InvariantKeptByEveryMove :
    (ready 0x200#16 0xF133#16).Inv ∧ { ready 0x200#16 0xF01E#16 with I := 0xFFF#16 }.Inv ∧
    ∃ t, stepWith .fatal (ready 0x200#16 0xF133#16) = .next t :=
  ⟨⟨by decide, by decide⟩, ⟨by decide, by decide⟩, ⟨_, rfl⟩⟩

theorem witness_ConstructionAndLaunchMeetTheInvariant :
    ∃ t, State.reset.launch [(0xFFF#12, 0xF0#8)] [0x12#8, 0x00#8] = .started t := ⟨_, rfl⟩

theorem witness_ProgramLoadWritesVerbatim :
    Memory.wf [] = true ∧ 0x200 + (List.replicate 3585 1#8).length > 4096 ∧ 0x200 + (List.replicate 3584 1#8).length ≤ 4096 := by
  rw [List.length_replicate, List.length_replicate]; decide

theorem witness_LaunchState :
    0x200 + (List.replicate 3584 1#8).length ≤ 4096 ∧
    ∃ font : List (Addr × Byte), (∃ q ∈ font, q.1.toNat = 0x1FF) ∧ (∀ q ∈ font, q.1.toNat = 0x1FF → q.2 = 0xF0#8) ∧
      ∀ q ∈ font, q.1.toNat ≠ 0x202 :=
  ⟨by rw [List.length_replicate], [(0x1FF#12, 0xF0#8)], by simp⟩

theorem witness_PlacedWordIsRunByTheNextStep :
    Memory.wf (ready 0x200#16 0#16).mem = true ∧ decodeTableWord 16 0xFF65 = some (.ldVxMemI 0xF#4) := by decide

theorem witness_FaultsExactlyAsListed :
    State.reset.running = true ∧ faultOf .cls State.reset = none ∧
    faultOf (.ldMemIVx 0xF#4) { State.reset with I := 0xFF0#16 } = none ∧
    faultOf (.ldMemIVx 0xF#4) { State.reset with I := 0xFF1#16 } = some (.addressFault 4096) ∧
    faultOf (.ldBVx 0#4) { State.reset with I := 0x1001#16 } = some (.addressFault 0x1001) ∧
    faultOf (.drw 0#4 0#4 1#4) { State.reset with I := 0xFFF#16 } = none ∧
    faultOf (.drw 0#4 0#4 2#4) { State.reset with I := 0xFFF#16 } = some (.addressFault 4096) := by decide

theorem witness_FaultRecordNamesTheInstruction :
    (∃ t, stepWith .fatal (ready 0xFFF#16 0#16) = .next t ∧ t.fsm = .faulted ⟨.addressFault 4096, 0xFFF#16, none⟩) ∧
    (∃ t, stepWith .fatal (ready 0x200#16 0x5121#16) = .next t ∧
      t.fsm = .faulted ⟨.decodeMiss, 0x200#16, some 0x5121#16⟩) ∧
    ∃ t, stepWith .fatal (ready 0x200#16 0x0FFF#16) = .next t ∧
      t.fsm = .faulted ⟨.unsupportedOpcode, 0x200#16, some 0x0FFF#16⟩ := ⟨⟨_, rfl, rfl⟩, ⟨_, rfl, rfl⟩, ⟨_, rfl, rfl⟩⟩

theorem witness_RegisterIndexFaultIsUnreachable :
    ∃ t r, stepWith .fatal (ready 0x200#16 0x0000#16) = .next t ∧ t.fsm = .faulted r := ⟨_, _, rfl, rfl⟩

/-- An instruction and a state in which it completes. -/
def Completes (i : Instr) (s : State) : Prop := ∃ t, exec i s = .next t ∧ t.running = true

theorem witness_OnlyListedRegistersAreWritten : Completes (.shl 0xF#4 0#4) State.reset := ⟨_, rfl, rfl⟩

theorem witness_OnlyThreeInstructionsWriteI :
    Completes (.ldVxMemI 0xF#4) State.reset ∧ Completes (.ldIAddr 0xFFF#12) State.reset ∧
    Completes (.addIVx 0#4) { State.reset with I := 0xFFFF#16 } := ⟨⟨_, rfl, rfl⟩, ⟨_, rfl, rfl⟩, ⟨_, rfl, rfl⟩⟩

theorem witness_OnlyCallAndRetChangeSP :
    Completes .cls State.reset ∧ Completes (.call 0x300#12) { State.reset with SP := 15 } ∧
    Completes .ret { State.reset with SP := 16 } ∧ Completes .ret { State.reset with SP := 1 } :=
  ⟨⟨_, rfl, rfl⟩, ⟨_, rfl, rfl⟩, ⟨_, rfl, rfl⟩, ⟨_, rfl, rfl⟩⟩

theorem witness_MemoryAndTimersHaveFewWriters :
    Completes (.drw 0#4 0#4 0xF#4) State.reset ∧ Completes (.ldBVx 0#4) State.reset ∧ Completes (.ldDtVx 0#4) State.reset ∧
    Completes (.ldStVx 0#4) State.reset := ⟨⟨_, rfl, rfl⟩, ⟨_, rfl, rfl⟩, ⟨_, rfl, rfl⟩, ⟨_, rfl, rfl⟩⟩

theorem witness_SoundTimerIsNeverRead :
    Completes (.ldVxDt 0#4) State.reset ∧ Completes (.ldStVx 0#4) State.reset := ⟨⟨_, rfl, rfl⟩, ⟨_, rfl, rfl⟩⟩

/-- One return address on the stack, and another free slot 5. -/
theorem witness_FreeStackSlotsAreNeverRead :
    let s : State := { State.reset with SP := 1, stack := State.reset.stack.set 0 0x204#16 }
    let st := s.stack.set 5 0x999#16
    st ≠ s.stack ∧ (∀ j : Fin 16, j.val < s.SP.val → st[j.val]'j.isLt = s.stack[j.val]'j.isLt) ∧
    Completes .ret s ∧ Completes .ret { s with stack := st } :=
  ⟨by decide, by decide, ⟨_, rfl, rfl⟩, ⟨_, rfl, rfl⟩⟩

theorem witness_PcStaysAdvancedOrSkips :
    Completes .cls State.reset ∧ writesPc .cls = false ∧ Completes (.skp 0#4) State.reset ∧ isSkip (.skp 0#4) = true :=
  ⟨⟨_, rfl, rfl⟩, rfl, ⟨_, rfl, rfl⟩, rfl⟩

theorem witness_ReadAfterWrite : Memory.wf [(4095, 1#8)] = true ∧ 4095 < 4096 ∧ 4096 ≤ 4096 := by decide

theorem witness_StoredBytesAreFetched :
    let s : State := { State.reset with I := 0xFF0#16 }
    Memory.wf s.mem = true ∧ s.base + (0xF#4).toNat < 4096 ∧ (0xE#4).toNat < (0xF#4).toNat ∧
    (0xFFE#16).toNat = s.base + (0xE#4).toNat := by decide

theorem witness_EndOfRunIsStable : (ready 0x204#16 0x1204#16).atEnd 0x204#12 := ⟨rfl, rfl, rfl⟩

theorem witness_RetPopsIntoPc :
    { State.reset with SP := 1 }.SP.val ≠ 0 ∧ { State.reset with SP := 16 }.SP.val ≠ 0 := by decide

theorem witness_CallPushesAndJumps :
    State.reset.SP.val < 16 ∧ { State.reset with SP := 15 }.SP.val < 16 := by decide

theorem witness_RetAfterCallReturns : { State.reset with SP := 15 }.SP.val < 16 := by decide

theorem witness_SixteenCallsThenStackFault :
    (State.reset.SP.val = 0 ∧ State.reset.SP.val + (List.replicate 16 0x200#12).length ≤ 16 ∧
      (List.replicate 16 0x200#12).length = 16) ∧
    (∃ t r, { State.reset with SP := 16 }.running = true ∧
      exec (.call 0x300#12) { State.reset with SP := 16 } = .next t ∧ t.fsm = .faulted r ∧ r.kind = .stackOverflow 16) ∧
    { State.reset with SP := 16 }.SP.val = 16 ∧
    ∃ t r, State.reset.running = true ∧ exec .ret State.reset = .next t ∧ t.fsm = .faulted r ∧ r.kind = .stackUnderflow 0 :=
  ⟨by decide, ⟨_, _, rfl, rfl, rfl, rfl⟩, rfl, ⟨_, _, rfl, rfl, rfl, rfl⟩⟩

theorem witness_KeySkips :
    ((put [(0#4, 0x0F#8)] State.reset).reg 0#4).toNat ≤ 0xF ∧ ((put [(0#4, 0x10#8)] State.reset).reg 0#4).toNat > 0xF := by
  decide

/-- For AddSetsCarry, SubtractionsSetFlag and ShiftsSetFlag: a destination other than VF; for RndMasksTheRandomByte: kk = 0. -/
theorem witness_destination_other_than_VF : (0xE#4 : Nibble) ≠ 0xF#4 ∧ (0#8 : Byte) = 0#8 := by decide

theorem witness_LdBStoresTheDigits :
    Memory.wf State.reset.mem = true ∧ { State.reset with I := 0xFFD#16 }.base + 2 < 4096 := by decide

theorem witness_StoreRegistersAtI :
    Memory.wf State.reset.mem = true ∧ { State.reset with I := 0xFF0#16 }.base + (0xF#4).toNat < 4096 ∧
    (0xF#4).toNat ≤ (0xF#4).toNat := by decide

theorem witness_LoadRegistersFromI :
    { State.reset with I := 0xFFF#16 }.base + (0#4).toNat < 4096 ∧ (0#4).toNat ≤ (0#4).toNat ∧ (0#4).toNat < (1#4).toNat := by
  decide

theorem witness_DrwSendsTheSprite :
    (0#4).toNat = 0 ∧ { State.reset with I := 0xFF1#16 }.base + (0xF#4).toNat ≤ 4096 := by decide

theorem witness_EveryMoveMayComeNext :
    State.reset.fsm = .ready ∧ (waiting []).fsm = .waitKey 3#4 ∧ (waiting [.tick]).host ≠ [] ∧ State.reset.host = [] := by decide

end Sys2Proof.Tests
end

section
/-! PROOF. The state of the CORE (10_state.md): the invariant that every move keeps, which elements an instruction may
write (registers, I, SP and the stack), and which it never reads (ST, the free stack slots).
Each statement goes through `exec_running` or `stepWith_cases` to a lemma about `complete`, the state that an instruction
leaves when it takes no fault. -/

namespace Sys2Proof.Machine

/-! ### What the absence of a fault says of the operands -/

theorem faultOf_call_none {nnn : Addr} {s : State} : faultOf (.call nnn) s = none ↔ s.SP.val ≠ 16 := by
  simp [faultOf]

theorem faultOf_ret_none {s : State} : faultOf .ret s = none ↔ s.SP.val ≠ 0 := by
  simp [faultOf]

theorem faultOf_ldBVx_none {x : Nibble} {s : State} : faultOf (.ldBVx x) s = none ↔ s.I.toNat + 2 < 4096 := by
  simp [faultOf]
  omega

theorem faultOf_ldMemIVx_none {x : Nibble} {s : State} :
    faultOf (.ldMemIVx x) s = none ↔ s.I.toNat + x.toNat < 4096 := by
  simp [faultOf]

/-! ### I (R24) -/

theorem addrWord_lt (nnn : Addr) : (addrWord nnn).toNat < 4096 := by
  have h := nnn.isLt
  simp only [addrWord, BitVec.toNat_setWidth]
  omega

theorem complete_I_kept {i : Instr} (h : i.tag ∉ [Tag.ldIAddr, .addIVx, .ldFVx]) (s : State) :
    (complete i s).I = s.I := by
  cases i with
  | ldIAddr | addIVx | ldFVx => exact absurd (by simp [Instr.tag]) h
  | _ => rfl

theorem complete_I_lt {i : Instr} (h : i.tag ∈ [Tag.ldIAddr, .addIVx, .ldFVx]) (s : State) :
    (complete i s).I.toNat < 4096 := by
  cases i with
  | ldIAddr nnn => exact addrWord_lt nnn
  | addIVx x =>
    simp only [complete, BitVec.toNat_ofNat]
    omega
  | ldFVx x => exact addrWord_lt _
  | _ => simp [Instr.tag] at h

/-! ### The invariant (R24, R50) -/

/-- The invariant of a running machine passes to every state with its memory and its I. -/
theorem State.Inv.of_same {s t : State} (h : s.Inv) (hr : s.running = true) (hm : t.mem = s.mem) (hI : t.I = s.I) :
    t.Inv :=
  ⟨hm ▸ h.1, fun _ => hI ▸ h.2 hr⟩

theorem State.keyPress_mem (k : Nibble) (s : State) : (s.keyPress k).mem = s.mem := by
  unfold State.keyPress; split <;> rfl

theorem State.keyPress_I (k : Nibble) (s : State) : (s.keyPress k).I = s.I := by
  unfold State.keyPress; split <;> rfl

/-- Only the two storing instructions write memory, and without a fault their block lies inside the space. -/
theorem complete_wf {i : Instr} {s : State} (hf : faultOf i s = none) (hm : Memory.wf s.mem = true) :
    Memory.wf (complete i s).mem = true := by
  cases i with
  | ldBVx x =>
    have hb := faultOf_ldBVx_none.1 hf
    exact Memory.wf_setFrom hm (by simp only [bcdDigits_length, Config.memSize]; omega)
  | ldMemIVx x =>
    have hb := faultOf_ldMemIVx_none.1 hf
    exact Memory.wf_setFrom hm (by simp only [State.regsUpTo_length, Config.memSize]; omega)
  | _ => exact hm

theorem complete_inv {i : Instr} {s : State} (hf : faultOf i s = none) (h : s.Inv) (hr : s.running = true) :
    (complete i s).Inv := by
  refine ⟨complete_wf hf h.1, fun _ => ?_⟩
  by_cases hi : i.tag ∈ [Tag.ldIAddr, .addIVx, .ldFVx]
  · exact complete_I_lt hi s
  · rw [complete_I_kept hi]
    exact h.2 hr

theorem effect_inv {s : State} (i : Instr) (h : s.Inv) (hr : s.running = true) : (effect i s).Inv := by
  cases hf : faultOf i s with
  | some k => rw [effect_of_fault hf]; exact State.raise_inv k i s
  | none => rw [effect_of_none hf]; exact complete_inv hf h hr

theorem State.execInvalid_inv {s : State} (p : Config.InvalidPolicy) (op : Word) (h : s.Inv) (hr : s.running = true) :
    (s.execInvalid p op).Inv := by
  cases p with
  | fatal => exact State.takeFault_inv _ s
  | skip => exact h.of_same hr rfl rfl

theorem cycle_inv {p : Config.InvalidPolicy} {s t : State} (h : s.Inv) (hr : s.running = true)
    (hc : cycle p s = .next t) : t.Inv := by
  have hadv : s.advance.Inv := h.of_same hr rfl rfl
  obtain ⟨a, -, rfl⟩ | ⟨op, -, -, rfl⟩ | ⟨op, i, -, -, rfl⟩ := cycle_cases hc
  · exact State.takeFault_inv _ s
  · exact State.execInvalid_inv p op hadv hr
  · exact effect_inv i hadv hr

theorem stepWith_inv {p : Config.InvalidPolicy} {s t : State} (h : s.Inv) (hs : stepWith p s = .next t) : t.Inv := by
  obtain ⟨hr, hmove⟩ := stepWith_cases hs
  have hdrop : s.dropMove.Inv := h.of_same hr rfl rfl
  have hrun : s.dropMove.running = true := hr
  obtain ⟨-, rfl⟩ | ⟨k, -, rfl⟩ | ⟨-, x, -, rfl⟩ | ⟨-, -, hc⟩ := hmove
  · exact hdrop.of_same hrun rfl rfl
  · exact hdrop.of_same hrun (State.keyPress_mem k _) (State.keyPress_I k _)
  · exact hdrop
  · exact cycle_inv hdrop hrun hc

/-! ### General registers (R22) -/

/-- A register and ALU instruction leaves every register but its destination and, where its operation has a flag, VF. -/
theorem State.aluStep_reg_other {op : AluOp} {x z : Nibble} {b : Operand} {s : State} (hx : z ≠ x)
    (hF : (alu op (s.reg x) (b.value s)).f ≠ none → z ≠ 0xF#4) : (s.aluStep op x b).reg z = s.reg z := by
  rw [State.aluStep_reg]
  cases hf : (alu op (s.reg x) (b.value s)).f with
  | none => exact if_neg hx
  | some f => exact (if_neg (hF (by simp [hf]))).trans (if_neg hx)

theorem mem_regsWritten_ldVxMemI {x z : Nibble} (h : z.toNat ≤ x.toNat) : z ∈ regsWritten (.ldVxMemI x) :=
  List.mem_map.2 ⟨z.toNat, List.mem_range.2 (by omega), by simp⟩

theorem complete_reg_other {i : Instr} {z : Nibble} (h : z ∉ regsWritten i) (s : State) :
    (complete i s).reg z = s.reg z := by
  cases i with
  | ldVxByte x _ | addVxByte x _ | ldVxVy x _ | or x _ | and x _ | xor x _ =>
    exact State.aluStep_reg_other (List.ne_of_not_mem_cons h) fun hn => absurd rfl hn
  | addVxVy x _ | sub x _ | shr x _ | subn x _ | shl x _ =>
    exact State.aluStep_reg_other (List.ne_of_not_mem_cons h) fun _ =>
      List.ne_of_not_mem_cons (List.not_mem_of_not_mem_cons h)
  | rnd x kk => exact (State.rndWith_reg ..).trans (if_neg (List.ne_of_not_mem_cons h))
  | ldVxDt x => exact State.setReg_reg_other _ _ _ _ (List.ne_of_not_mem_cons h)
  | drw x y n => exact State.setFlag_reg_other _ _ _ (List.ne_of_not_mem_cons h)
  | ldVxMemI x =>
    have hz : x.toNat < z.toNat := Nat.lt_of_not_le fun hle => h (mem_regsWritten_ldVxMemI hle)
    simp only [complete, State.setRegsFrom0_reg]
    rw [List.getElem?_eq_none (by simpa using hz)]
    rfl
  | _ => rfl

/-! ### SP and the stack (R26, R27) -/

theorem complete_sameStack {i : Instr} (hc : i.tag ≠ .call) (hr : i.tag ≠ .ret) (s : State) :
    s.SameStack (complete i s) := by
  cases i with
  | call => exact absurd rfl hc
  | ret => exact absurd rfl hr
  | _ => exact ⟨rfl, rfl⟩

theorem complete_SP_of_call {i : Instr} {s : State} (hi : i.tag = .call) (hf : faultOf i s = none) :
    s.SP.val ≠ 16 ∧ (complete i s).SP.val = s.SP.val + 1 := by
  cases i with
  | call nnn =>
    have h16 := faultOf_call_none.1 hf
    exact ⟨h16, by simp only [complete]; omega⟩
  | _ => cases hi

theorem complete_SP_of_ret {i : Instr} {s : State} (hi : i.tag = .ret) (hf : faultOf i s = none) :
    s.SP.val ≠ 0 ∧ (complete i s).SP.val + 1 = s.SP.val := by
  cases i with
  | ret =>
    have h0 := faultOf_ret_none.1 hf
    exact ⟨h0, by simp only [complete]; omega⟩
  | _ => cases hi

/-! ### ST is not read (R29) -/

theorem faultOf_withST (i : Instr) (s : State) (b : Byte) : faultOf i { s with ST := b } = faultOf i s := by
  cases i <;> rfl

theorem complete_withST (i : Instr) (s : State) (b : Byte) :
    complete i { s with ST := b } =
      { complete i s with ST := if i.tag = .ldStVx then (complete i s).ST else b } := by
  cases i <;> rfl

/-! ### Free stack slots are not read (R27) -/

/-- Two stacks hold the same in every slot below `n`. -/
def AgreeBelow (n : Nat) (u v : Vector Word 16) : Prop :=
  ∀ j : Fin 16, j.val < n → u[j.val]'j.isLt = v[j.val]'j.isLt

theorem AgreeBelow.mono {m n : Nat} {u v : Vector Word 16} (h : AgreeBelow n u v) (hmn : m ≤ n) : AgreeBelow m u v :=
  fun j hj => h j (Nat.lt_of_lt_of_le hj hmn)

/-- The same word pushed onto both stacks extends their agreement by its slot. -/
theorem AgreeBelow.push {n : Nat} {u v : Vector Word 16} (h : AgreeBelow n u v) (w : Word) :
    AgreeBelow (n + 1) (u.setIfInBounds n w) (v.setIfInBounds n w) := by
  intro j hj
  rw [Vector.getElem_setIfInBounds, Vector.getElem_setIfInBounds]
  by_cases hn : n = j.val
  · rw [if_pos hn, if_pos hn]
  · rw [if_neg hn, if_neg hn, h j (by omega)]

theorem faultOf_withStack (i : Instr) (s : State) (st : Vector Word 16) :
    faultOf i { s with stack := st } = faultOf i s := by
  cases i <;> rfl

/-- What an instruction leaves beside the stack does not depend on the free slots: RET alone reads a slot, the occupied
one below SP. -/
theorem complete_withStack {i : Instr} {s : State} {st : Vector Word 16} (hf : faultOf i s = none)
    (hst : AgreeBelow s.SP.val st s.stack) :
    complete i { s with stack := st } =
      { complete i s with stack := (complete i { s with stack := st }).stack } := by
  cases i with
  | ret =>
    have h0 := faultOf_ret_none.1 hf
    have htop : st[s.SP.val - 1]'(by omega) = s.stack[s.SP.val - 1]'(by omega) :=
      hst ⟨s.SP.val - 1, by omega⟩ (Nat.sub_one_lt h0)
    simp only [complete, htop]
  | _ => rfl

theorem complete_stack_agree {i : Instr} {s : State} {st : Vector Word 16} (hst : AgreeBelow s.SP.val st s.stack) :
    AgreeBelow (complete i s).SP.val (complete i { s with stack := st }).stack (complete i s).stack := by
  cases i with
  | ret => exact hst.mono (Nat.sub_le ..)
  | call nnn => exact (hst.push s.pc).mono (Nat.min_le_left ..)
  | _ => exact hst

end Sys2Proof.Machine

namespace Sys2Proof.Proofs

open Sys2Proof Sys2Proof.Machine

/-- Settles O17, move by move: a fault meets the invariant whatever it shows, and a completion writes memory and I only in
range. -/
theorem invariantKeptByEveryMove : Obligations.InvariantKeptByEveryMove :=
  fun _ _ _ => stepWith_inv

/-- Settles O26: a register that an instruction may not write reads the same in its completion. -/
theorem onlyListedRegistersAreWritten : Obligations.OnlyListedRegistersAreWritten := by
  intro i s t h hr z hz
  obtain ⟨-, rfl⟩ := exec_running h hr
  exact complete_reg_other hz s

/-- Settles O27: the three writers of I take their value from an address field or modulo 4096. -/
theorem onlyThreeInstructionsWriteI : Obligations.OnlyThreeInstructionsWriteI := by
  intro i s t h hr
  obtain ⟨-, rfl⟩ := exec_running h hr
  exact ⟨fun hi => complete_I_kept hi s, fun hi => complete_I_lt hi s⟩

/-- Settles O28: CALL and RET complete only with room or an entry on the stack, and the others keep both. -/
theorem onlyCallAndRetChangeSP : Obligations.OnlyCallAndRetChangeSP := by
  intro i s t h hr
  obtain ⟨hf, rfl⟩ := exec_running h hr
  exact ⟨Nat.le_of_lt_succ (complete i s).SP.isLt, fun hc hr => complete_sameStack hc hr s,
    fun hi => complete_SP_of_call hi hf, fun hi => complete_SP_of_ret hi hf⟩

/-- Settles O30: neither the choice of a fault nor the completion reads ST. -/
theorem soundTimerIsNeverRead : Obligations.SoundTimerIsNeverRead := by
  intro i s t b h hr
  obtain ⟨hf, rfl⟩ := exec_running h hr
  rw [exec_eq, effect_of_none ((faultOf_withST i s b).trans hf), complete_withST]

/-- Settles O31: the second run takes no fault either, so both states are completions, and these agree below SP. -/
theorem freeStackSlotsAreNeverRead : Obligations.FreeStackSlotsAreNeverRead := by
  intro i s t t' st hst h h' hr
  obtain ⟨hf, rfl⟩ := exec_running h hr
  rw [exec_eq, effect_of_none ((faultOf_withStack i s st).trans hf)] at h'
  cases h'
  exact ⟨complete_withStack hf hst, complete_stack_agree hst⟩

end Sys2Proof.Proofs
end

section
/-! PROOF. Memory (20_memory.md): read after write, program load, the fetch outside memory, the bytes that LD [I], Vx stores
as the next fetch reads them, and which instructions write memory and the timers.
A byte of a written block is read by `Memory.byte_setFrom_block`, one outside it by `Memory.byte_setFrom_outside`. -/

namespace Sys2Proof.Machine

/-! ### A written block (R54) -/

theorem Memory.byte_setFrom_block {m : Memory} (hm : Memory.wf m = true) {b i : Nat} {vs : List Byte} {v : Byte}
    (h : b + vs.length ≤ Config.memSize) (hi : vs[i]? = some v) : Memory.byte (Memory.setFrom m b vs) (b + i) = v := by
  rw [Memory.byte_setFrom hm h, if_pos (Nat.le_add_right b i), Nat.add_sub_cancel_left, hi, Option.getD_some]

theorem Memory.byte_setFrom_outside {m : Memory} (hm : Memory.wf m = true) {b a : Nat} {vs : List Byte}
    (h : b + vs.length ≤ Config.memSize) (ha : a < b ∨ b + vs.length ≤ a) :
    Memory.byte (Memory.setFrom m b vs) a = Memory.byte m a := by
  rw [Memory.byte_setFrom hm h]
  rcases ha with ha | ha
  · rw [if_neg (Nat.not_le.2 ha)]
  · rw [List.getElem?_eq_none (by omega), Option.getD_none, ite_self]

/-! ### Read after write (R51, R52) -/

theorem memRead_set_same {m : Memory} (hm : Memory.wf m = true) {a : Nat} (ha : a < Config.memSize) (v : Byte) :
    memRead (Memory.set m a v) a = .ok v := by
  rw [memRead_ok ha, Memory.byte_set hm, if_pos rfl]

theorem memRead_set_other {m : Memory} (hm : Memory.wf m = true) {a a' : Nat} (h : a' ≠ a) (v : Byte) :
    memRead (Memory.set m a v) a' = memRead m a' := by
  simp only [memRead, Memory.byte_set hm, if_neg h]

/-! ### Program load (R58, R257) -/

theorem loadProgram_fits {p : List Byte} (h : Config.loadBase + p.length ≤ Config.memSize) (m : Memory) :
    loadProgram p m = some (Memory.setFrom m Config.loadBase p) :=
  if_neg (Nat.not_lt.2 h)

theorem loadProgram_tooLong {p : List Byte} (h : Config.memSize < Config.loadBase + p.length) (m : Memory) :
    loadProgram p m = none :=
  if_pos h

theorem State.launch_tooLong {p : List Byte} (h : Config.memSize < Config.loadBase + p.length)
    (font : List (Addr × Byte)) (s : State) : s.launch font p = .loadFault p.length := by
  simp only [State.launch, loadProgram_tooLong h]

/-! ### Writers of memory and of the timers (R65, R28, R29) -/

theorem complete_sameMem {i : Instr} (h : i.tag ∉ [Tag.ldBVx, .ldMemIVx]) (s : State) : s.SameMem (complete i s) := by
  cases i with
  | ldBVx | ldMemIVx => exact absurd (by simp [Instr.tag]) h
  | _ => exact fun _ => rfl

theorem complete_DT {i : Instr} (h : i.tag ≠ .ldDtVx) (s : State) : (complete i s).DT = s.DT := by
  cases i with
  | ldDtVx => exact absurd rfl h
  | _ => rfl

theorem complete_ST {i : Instr} (h : i.tag ≠ .ldStVx) (s : State) : (complete i s).ST = s.ST := by
  cases i with
  | ldStVx => exact absurd rfl h
  | _ => rfl

/-! ### Registers stored at I (R204) -/

/-- After LD [I], Vx in range, the byte at `I + z` is `V[z]` for every register that was stored. -/
theorem State.byte_setFrom_regsUpTo {s : State} (hm : Memory.wf s.mem = true) {x z : Nibble}
    (h : s.base + x.toNat < Config.memSize) (hz : z.toNat ≤ x.toNat) :
    Memory.byte (Memory.setFrom s.mem s.base (s.regsUpTo x)) (s.base + z.toNat) = s.reg z :=
  Memory.byte_setFrom_block hm (by rw [State.regsUpTo_length]; omega) (State.regsUpTo_get s x z hz)

/-- The number after a register number that lies below another one does not wrap. -/
theorem nibble_succ_toNat {k x : Nibble} (h : k.toNat < x.toNat) : (k + 1#4).toNat = k.toNat + 1 :=
  BitVec.toNat_add_of_lt (Nat.lt_of_le_of_lt h x.isLt)

end Sys2Proof.Machine

namespace Sys2Proof.Proofs

open Sys2Proof Sys2Proof.Machine

/-- Settles O20: a program that fits is one block write, and a launch of a longer one loads nothing. -/
theorem programLoadWritesVerbatim : Obligations.ProgramLoadWritesVerbatim := by
  intro m p hm
  refine ⟨fun h => ⟨loadProgram_tooLong h m, fun s font => State.launch_tooLong h font s⟩, fun h => ?_⟩
  exact ⟨_, loadProgram_fits h m, Memory.wf_setFrom hm h,
    fun i hi => Memory.byte_setFrom_block hm h (List.getElem?_eq_getElem hi),
    fun a ha => Memory.byte_setFrom_outside hm h ha⟩

/-- Settles O29: each of the three elements is kept by every completion but those of its writers. -/
theorem memoryAndTimersHaveFewWriters : Obligations.MemoryAndTimersHaveFewWriters := by
  intro i s t h hr
  obtain ⟨-, rfl⟩ := exec_running h hr
  exact ⟨fun hi => complete_sameMem hi s, fun hi => complete_DT hi s, fun hi => complete_ST hi s⟩

/-- Settles O33: in the space the write is `Memory.set`; outside it both accesses answer the address. -/
theorem readAfterWrite : Obligations.ReadAfterWrite := by
  intro m a v hm
  refine ⟨fun ha => ⟨memRead_ok ha, ?_⟩, fun ha => ⟨memRead_error ha, memWrite_error ha v⟩⟩
  exact ⟨_, memWrite_ok ha v, Memory.wf_set hm ha v, memRead_set_same hm ha v, fun a' h => memRead_set_other hm h v⟩

/-- Settles O34: both bytes of the fetch lie in the stored block, at the places of `V[k]` and `V[k + 1]`. -/
theorem storedBytesAreFetched : Obligations.StoredBytesAreFetched := by
  intro s x k pc hm hx hk hpc
  have hnext : (k + 1#4).toNat = k.toNat + 1 := nibble_succ_toNat hk
  have hhi := State.byte_setFrom_regsUpTo hm hx (Nat.le_of_lt hk)
  have hlo := State.byte_setFrom_regsUpTo hm hx (z := k + 1#4) (by omega)
  have hin : pc.toNat + 1 < Config.memSize := by simp only [Config.memSize]; omega
  rw [hnext, ← Nat.add_assoc, ← hpc] at hlo
  rw [← hpc] at hhi
  refine ⟨_, exec_ldMemIVx_ok hx, (fetch_ok hin).trans ?_⟩
  exact congrArg Except.ok (congrArg₂ wordOfBytes hhi hlo)

/-- Settles O10: the fetch faults at the first of its two addresses that is 4096 or more, before pc advances. -/
theorem fetchOutsideMemoryFaults : Obligations.FetchOutsideMemoryFaults := by
  intro p s hr hm hpc
  have haddr : max s.pc.toNat Config.memSize = if s.pc.toNat = 4095 then 4096 else s.pc.toNat := by
    simp only [Config.memSize]
    split <;> omega
  have hout : Config.memSize ≤ s.dropMove.pc.toNat + 1 := Nat.succ_le_succ hpc
  refine ⟨_, (stepWith_turn p hr hm).trans (cycle_fetch_error p hout), ?_⟩
  rw [← haddr]
  rfl

end Sys2Proof.Proofs
end

section
/-! PROOF. The encoding (30_encoding.md): the decoder and the encoder undo each other, and the order of the rows
matters for SYS alone. The argument turns on three facts. A row's selector and payload are the nibbles its mask keeps and
drops, so an instruction's operands and its payload determine each other (`ofTag_eq_iff_payload`). A word selects at most
one row once SYS gives way to CLS and RET (`Selects.unique`). That row is the first one the word hits, in every
admissible order (`AdmissibleOrder.decodeTagIn_of_selects`). -/

namespace Sys2Proof

open Sys2Proof.Laws Sys2Proof.Laws.Encoding Sys2Proof.Claims

/-! ### A word as its fields (R70, R71) -/

theorem bv_append_eq_append_iff {w v : Nat} {a a' : BitVec w} {b b' : BitVec v} :
    a ++ b = a' ++ b' ↔ a = a' ∧ b = b' := by
  constructor
  · intro h
    exact ⟨by simpa only [BitVec.extractLsb'_append_eq_left] using congrArg (BitVec.extractLsb' v w) h,
      by simpa only [BitVec.extractLsb'_append_eq_right] using congrArg (BitVec.extractLsb' 0 v) h⟩
  · rintro ⟨rfl, rfl⟩
    rfl

theorem fieldKK_eq_yn (op : Word) : fieldKK op = fieldY op ++ fieldN op :=
  (BitVec.extractLsb'_append_extractLsb'_eq_extractLsb' (len₂ := 4) (len₁ := 4) (x := op) rfl).symm

theorem fieldNNN_eq_xkk (op : Word) : fieldNNN op = fieldX op ++ fieldKK op :=
  (BitVec.extractLsb'_append_extractLsb'_eq_extractLsb' (len₂ := 4) (len₁ := 8) (x := op) rfl).symm

theorem eq_high_append_low {h l : Nat} (v : BitVec (h + l)) : v = v.extractLsb' l h ++ v.extractLsb' 0 l := by
  rw [BitVec.extractLsb'_append_extractLsb'_eq_extractLsb' (Nat.zero_add l).symm, BitVec.extractLsb'_eq_self]

theorem word_eq_nnn (op : Word) : op = fieldH op ++ fieldNNN op :=
  eq_high_append_low (h := 4) (l := 12) op

theorem hiByte_eq_hx (op : Word) : hiByte op = fieldH op ++ fieldX op :=
  (BitVec.extractLsb'_append_extractLsb'_eq_extractLsb' (len₂ := 4) (len₁ := 4) (x := op) rfl).symm

theorem word_eq_xkk (op : Word) : op = fieldH op ++ fieldX op ++ fieldKK op :=
  (wordOfBytes_hi_lo op).symm.trans (congrArg (wordOfBytes · (fieldKK op)) (hiByte_eq_hx op))

theorem word_eq_xyn (op : Word) : op = fieldH op ++ fieldX op ++ fieldY op ++ fieldN op := by
  have hxy : (op.extractLsb' 4 12 : Addr) = hiByte op ++ fieldY op :=
    (BitVec.extractLsb'_append_extractLsb'_eq_extractLsb' (len₂ := 8) (len₁ := 4) (x := op) rfl).symm
  rw [hiByte_eq_hx] at hxy
  exact (eq_high_append_low (h := 12) (l := 4) op).trans (congrArg (fun a : Addr => (a ++ fieldN op : Word)) hxy)

theorem fieldKK_eq_iff {p q : Word} : fieldKK p = fieldKK q ↔ fieldY p = fieldY q ∧ fieldN p = fieldN q := by
  rw [fieldKK_eq_yn, fieldKK_eq_yn]
  exact bv_append_eq_append_iff

theorem fieldNNN_eq_iff {p q : Word} : fieldNNN p = fieldNNN q ↔ fieldX p = fieldX q ∧ fieldKK p = fieldKK q := by
  rw [fieldNNN_eq_xkk, fieldNNN_eq_xkk]
  exact bv_append_eq_append_iff

theorem fieldH_toNat (op : Word) : (fieldH op).toNat = op.toNat / 4096 := by
  simp only [fieldH, BitVec.extractLsb'_toNat, Nat.shiftRight_eq_div_pow]
  omega

theorem fieldN_toNat (op : Word) : (fieldN op).toNat = op.toNat % 16 := by
  simp only [fieldN, BitVec.extractLsb'_toNat, Nat.shiftRight_zero]

theorem fieldKK_toNat (op : Word) : (fieldKK op).toNat = op.toNat % 256 := by
  simp only [fieldKK, BitVec.extractLsb'_toNat, Nat.shiftRight_zero]

theorem eq_of_and_eq_of_and_not_eq {p q m : Word} (h : p &&& m = q &&& m) (hn : p &&& ~~~m = q &&& ~~~m) : p = q := by
  have hsplit (w : Word) : (w &&& m) ||| (w &&& ~~~m) = w := by
    rw [← BitVec.and_or_distrib_left, BitVec.or_not_self, BitVec.and_allOnes]
  rw [← hsplit p, h, hn, hsplit q]

/-! ### The payload: what each mask drops (R74, R75) -/

theorem payload_F000 (op : Word) : op &&& ~~~0xF000#16 = 0#4 ++ fieldNNN op :=
  (congrArg (· &&& ~~~0xF000#16) (word_eq_nnn op)).trans (word_payload_F000_nnn ..)

theorem payload_F00F (op : Word) : op &&& ~~~0xF00F#16 = 0#4 ++ fieldX op ++ fieldY op ++ 0#4 :=
  (congrArg (· &&& ~~~0xF00F#16) (word_eq_xyn op)).trans (word_payload_F00F_xy ..)

theorem payload_F0FF (op : Word) : op &&& ~~~0xF0FF#16 = 0#4 ++ fieldX op ++ 0#8 :=
  (congrArg (· &&& ~~~0xF0FF#16) (word_eq_xkk op)).trans (word_payload_F0FF_x ..)

theorem payload_FFFF (op : Word) : op &&& ~~~0xFFFF#16 = 0#16 := BitVec.and_zero

theorem payload_F000_eq_iff {p q : Word} :
    p &&& ~~~0xF000#16 = q &&& ~~~0xF000#16 ↔ fieldNNN p = fieldNNN q := by
  rw [payload_F000, payload_F000]
  exact bv_append_eq_append_iff.trans (and_iff_right rfl)

theorem payload_F00F_eq_iff {p q : Word} :
    p &&& ~~~0xF00F#16 = q &&& ~~~0xF00F#16 ↔ fieldX p = fieldX q ∧ fieldY p = fieldY q := by
  constructor
  · intro h
    rw [payload_F00F, payload_F00F] at h
    exact ⟨by simpa only [fieldX_xyn] using congrArg fieldX h, by simpa only [fieldY_xyn] using congrArg fieldY h⟩
  · rintro ⟨hx, hy⟩
    rw [payload_F00F, payload_F00F, hx, hy]

theorem payload_F0FF_eq_iff {p q : Word} : p &&& ~~~0xF0FF#16 = q &&& ~~~0xF0FF#16 ↔ fieldX p = fieldX q := by
  constructor
  · intro h
    rw [payload_F0FF, payload_F0FF] at h
    simpa only [fieldX_xkk] using congrArg fieldX h
  · intro hx
    rw [payload_F0FF, payload_F0FF, hx]

/-- The operands of an instruction and its payload determine each other: a mask leaves out the operand fields alone. -/
theorem ofTag_eq_iff_payload {r : Row} (hr : r ∈ opcodeMap) {p q : Word} :
    Instr.ofTag r.tag p = Instr.ofTag r.tag q ↔ p &&& ~~~r.mask = q &&& ~~~r.mask := by
  fin_cases hr <;>
    simp [Instr.ofTag, payload_FFFF, payload_F000_eq_iff, payload_F00F_eq_iff, payload_F0FF_eq_iff, fieldNNN_eq_iff,
      fieldKK_eq_iff, -BitVec.reduceNot]

/-! ### The selector: what each mask keeps (R73, R77) -/

theorem selector_F000 (op : Word) : op &&& 0xF000#16 = fieldH op ++ 0#12 :=
  (congrArg (· &&& 0xF000#16) (word_eq_nnn op)).trans (word_and_F000_nnn ..)

theorem selector_F00F (op : Word) : op &&& 0xF00F#16 = fieldH op ++ 0#4 ++ 0#4 ++ fieldN op :=
  (congrArg (· &&& 0xF00F#16) (word_eq_xyn op)).trans (word_and_F00F_xy ..)

theorem selector_F0FF (op : Word) : op &&& 0xF0FF#16 = fieldH op ++ 0#4 ++ fieldKK op :=
  (congrArg (· &&& 0xF0FF#16) (word_eq_xkk op)).trans (word_and_F0FF_x ..)

theorem and_FFFF_eq_iff {op p : Word} : op &&& 0xFFFF#16 = p ↔ op.toNat = p.toNat := by
  rw [BitVec.toNat_inj, show op &&& 0xFFFF#16 = op from BitVec.and_allOnes]

theorem and_F000_eq_iff {op p : Word} (hp : p &&& 0xF000#16 = p) :
    op &&& 0xF000#16 = p ↔ op.toNat / 4096 = p.toNat / 4096 := by
  rw [← fieldH_toNat, ← fieldH_toNat, BitVec.toNat_inj]
  constructor
  · rintro rfl
    rw [selector_F000, fieldH_nnn]
  · intro h
    rw [← hp, selector_F000, selector_F000, h]

theorem and_F00F_eq_iff {op p : Word} (hp : p &&& 0xF00F#16 = p) :
    op &&& 0xF00F#16 = p ↔ op.toNat / 4096 = p.toNat / 4096 ∧ op.toNat % 16 = p.toNat % 16 := by
  rw [← fieldH_toNat, ← fieldH_toNat, ← fieldN_toNat, ← fieldN_toNat, BitVec.toNat_inj, BitVec.toNat_inj]
  constructor
  · rintro rfl
    rw [selector_F00F, fieldH_xyn, fieldN_xyn]
    exact ⟨rfl, rfl⟩
  · rintro ⟨hH, hN⟩
    rw [← hp, selector_F00F, selector_F00F, hH, hN]

theorem and_F0FF_eq_iff {op p : Word} (hp : p &&& 0xF0FF#16 = p) :
    op &&& 0xF0FF#16 = p ↔ op.toNat / 4096 = p.toNat / 4096 ∧ op.toNat % 256 = p.toNat % 256 := by
  rw [← fieldH_toNat, ← fieldH_toNat, ← fieldKK_toNat, ← fieldKK_toNat, BitVec.toNat_inj, BitVec.toNat_inj]
  constructor
  · rintro rfl
    rw [selector_F0FF, fieldH_xkk, fieldKK_xkk]
    exact ⟨rfl, rfl⟩
  · rintro ⟨hH, hKK⟩
    rw [← hp, selector_F0FF, selector_F0FF, hH, hKK]

theorem Row.hits_iff {r : Row} {op : Word} : r.hits op = true ↔ op &&& r.mask = r.pattern :=
  beq_iff_eq

theorem Row.hits_eq_false_iff {r : Row} {op : Word} : r.hits op = false ↔ op &&& r.mask ≠ r.pattern :=
  beq_eq_false_iff_ne

/-! ### The first row that matches (R73, R74) -/

theorem decodeTagIn_of_first_hit {pre post : List Row} {r : Row} {op : Word} (hpre : ∀ q ∈ pre, q.hits op = false)
    (hr : r.hits op = true) : decodeTagIn (pre ++ r :: post) op = (r.tag, op &&& ~~~r.mask) := by
  have hnone : pre.find? (fun q => q.hits op) = none := List.find?_eq_none.2 fun q hq => by simp [hpre q hq]
  simp [decodeTagIn, List.find?_append, hnone, hr]

theorem decodeTagIn_of_no_hit {rows : List Row} {op : Word} (h : ∀ r ∈ rows, r.hits op = false) :
    decodeTagIn rows op = (.invalid, 0#16) := by
  have hnone : rows.find? (fun r => r.hits op) = none := List.find?_eq_none.2 fun r hr => by simp [h r hr]
  simp [decodeTagIn, hnone]

theorem first_hit_or_no_hit (rows : List Row) (op : Word) :
    (∃ pre r post, rows = pre ++ r :: post ∧ (∀ q ∈ pre, q.hits op = false) ∧ r.hits op = true) ∨
    ∀ r ∈ rows, r.hits op = false := by
  cases hf : rows.find? (fun r => r.hits op) with
  | none => exact .inr fun r hr => by simpa using List.find?_eq_none.1 hf r hr
  | some r =>
    obtain ⟨hit, pre, post, hrows, hpre⟩ := List.find?_eq_some_iff_append.1 hf
    exact .inl ⟨pre, r, post, hrows, fun q hq => by simpa using hpre q hq, hit⟩

/-! ### Which rows share a word (R79) -/

/-- Two rows that share a word agree on the bits that both masks cover; the patterns say which rows do. -/
theorem rows_overlap_only_sys {q r : Row} {op : Word} (hq : q ∈ opcodeMap) (hr : r ∈ opcodeMap) (hqo : q.hits op = true)
    (hro : r.hits op = true) (hne : q ≠ r) :
    (q.tag = .sys ∧ (r.tag = .cls ∨ r.tag = .ret)) ∨ (r.tag = .sys ∧ (q.tag = .cls ∨ q.tag = .ret)) := by
  have hmasks : ∀ q ∈ opcodeMap, ∀ r ∈ opcodeMap, q ≠ r → q.pattern &&& r.mask = r.pattern &&& q.mask →
      (q.tag = .sys ∧ (r.tag = .cls ∨ r.tag = .ret)) ∨ (r.tag = .sys ∧ (q.tag = .cls ∨ q.tag = .ret)) := by decide
  refine hmasks q hq r hr hne ?_
  rw [← eq_of_beq hqo, ← eq_of_beq hro, BitVec.and_assoc, BitVec.and_assoc, BitVec.and_comm q.mask]

theorem opcodeMap_tags_nodup : (opcodeMap.map Row.tag).Nodup := by decide

theorem row_eq_of_tag_eq {q r : Row} (hq : q ∈ opcodeMap) (hr : r ∈ opcodeMap) (h : q.tag = r.tag) : q = r :=
  List.inj_on_of_nodup_map opcodeMap_tags_nodup hq hr h

/-- The row of CLS (R78). -/
def clsRow : Row := ⟨.cls, 0xFFFF#16, 0x00E0#16⟩

/-- The row of RET (R78). -/
def retRow : Row := ⟨.ret, 0xFFFF#16, 0x00EE#16⟩

/-- The row of SYS (R78). -/
def sysRow : Row := ⟨.sys, 0xF000#16, 0x0000#16⟩

theorem hits_cls_iff {r : Row} (hr : r ∈ opcodeMap) (ht : r.tag = .cls) {op : Word} :
    r.hits op = true ↔ op = 0x00E0#16 := by
  obtain rfl : r = clsRow := row_eq_of_tag_eq hr (by decide) ht
  rw [Row.hits_iff, clsRow, and_FFFF_eq_iff, BitVec.toNat_inj]

theorem hits_ret_iff {r : Row} (hr : r ∈ opcodeMap) (ht : r.tag = .ret) {op : Word} :
    r.hits op = true ↔ op = 0x00EE#16 := by
  obtain rfl : r = retRow := row_eq_of_tag_eq hr (by decide) ht
  rw [Row.hits_iff, retRow, and_FFFF_eq_iff, BitVec.toNat_inj]

theorem hits_sys_iff {r : Row} (hr : r ∈ opcodeMap) (ht : r.tag = .sys) {op : Word} :
    r.hits op = true ↔ op.toNat ≤ 0x0FFF := by
  obtain rfl : r = sysRow := row_eq_of_tag_eq hr (by decide) ht
  rw [Row.hits_iff, sysRow, and_F000_eq_iff (by decide)]
  simp only [BitVec.toNat_ofNat]
  omega

/-- The row that a word belongs to: it matches, and SYS gives way to CLS and RET (R79). -/
def Selects (op : Word) (r : Row) : Prop :=
  r ∈ opcodeMap ∧ r.hits op = true ∧ (r.tag = .sys → op ≠ 0x00E0#16 ∧ op ≠ 0x00EE#16)

theorem Selects.unique {op : Word} {q r : Row} (hq : Selects op q) (hr : Selects op r) : q = r := by
  obtain ⟨hqm, hqo, hqs⟩ := hq
  obtain ⟨hrm, hro, hrs⟩ := hr
  by_contra hne
  obtain ⟨hs, hc | hc⟩ | ⟨hs, hc | hc⟩ := rows_overlap_only_sys hqm hrm hqo hro hne
  · exact (hqs hs).1 ((hits_cls_iff hrm hc).1 hro)
  · exact (hqs hs).2 ((hits_ret_iff hrm hc).1 hro)
  · exact (hrs hs).1 ((hits_cls_iff hqm hc).1 hqo)
  · exact (hrs hs).2 ((hits_ret_iff hqm hc).1 hqo)

/-! ### The orders of the rows that decode alike (R79) -/

/-- An order of the rows in which CLS and RET stand before SYS (R79). -/
def AdmissibleOrder (rows : List Row) : Prop :=
  rows.Perm opcodeMap ∧ Before rows .cls .sys ∧ Before rows .ret .sys

theorem opcodeMap_admissibleOrder : AdmissibleOrder opcodeMap :=
  ⟨.refl _, ⟨[], [retRow], opcodeMap.drop 3, clsRow, sysRow, rfl, rfl, rfl⟩,
    ⟨[clsRow], [], opcodeMap.drop 3, retRow, sysRow, rfl, rfl, rfl⟩⟩

/-- Where no tag stands twice, the row of an earlier tag is among the rows before the later one. -/
theorem mem_of_before {rows pre post : List Row} {r : Row} {t : Tag} (hn : (rows.map Row.tag).Nodup)
    (hb : Before rows t r.tag) (hrows : rows = pre ++ r :: post) : ∃ a ∈ pre, a.tag = t := by
  obtain ⟨l, m, p, a, b, hsplit, rfl, hbr⟩ := hb
  have htags : rows.map Row.tag = (l ++ a :: m).map Row.tag ++ b.tag :: p.map Row.tag := by simp [hsplit]
  have htags' : rows.map Row.tag = pre.map Row.tag ++ r.tag :: post.map Row.tag := by simp [hrows]
  rw [htags, hbr] at hn
  obtain ⟨hnot, hnot'⟩ : r.tag ∉ (l ++ a :: m).map Row.tag ∧ r.tag ∉ p.map Row.tag := by
    obtain ⟨-, hlater, hdisj⟩ := List.nodup_append.1 hn
    exact ⟨fun h => hdisj _ h _ List.mem_cons_self rfl, (List.nodup_cons.1 hlater).1⟩
  rw [htags, hbr] at htags'
  obtain ⟨hpre, -⟩ := (List.append_cons_inj_of_notMem hnot hnot').1 htags'
  exact List.mem_map.1 (hpre ▸ List.mem_map_of_mem (by simp))

theorem AdmissibleOrder.selects_of_first_hit {rows pre post : List Row} {r : Row} {op : Word}
    (ha : AdmissibleOrder rows) (hrows : rows = pre ++ r :: post) (hpre : ∀ q ∈ pre, q.hits op = false)
    (hr : r.hits op = true) : Selects op r := by
  obtain ⟨hperm, hcls, hret⟩ := ha
  have hmem : ∀ q ∈ pre ++ r :: post, q ∈ opcodeMap := fun q hq => hperm.mem_iff.1 (hrows ▸ hq)
  have hn : (rows.map Row.tag).Nodup := (hperm.map Row.tag).nodup_iff.2 opcodeMap_tags_nodup
  refine ⟨hmem r (by simp), hr, fun hs => ⟨?_, ?_⟩⟩
  · obtain ⟨a, hap, hat⟩ := mem_of_before hn (hs ▸ hcls) hrows
    exact fun h => by simpa [hpre a hap] using (hits_cls_iff (hmem a (by simp [hap])) hat).2 h
  · obtain ⟨a, hap, hat⟩ := mem_of_before hn (hs ▸ hret) hrows
    exact fun h => by simpa [hpre a hap] using (hits_ret_iff (hmem a (by simp [hap])) hat).2 h

theorem AdmissibleOrder.decodeTagIn_of_selects {rows : List Row} {r : Row} {op : Word} (ha : AdmissibleOrder rows)
    (h : Selects op r) : decodeTagIn rows op = (r.tag, op &&& ~~~r.mask) := by
  obtain ⟨pre, q, post, hrows, hpre, hq⟩ | hno := first_hit_or_no_hit rows op
  · obtain rfl := (ha.selects_of_first_hit hrows hpre hq).unique h
    rw [hrows, decodeTagIn_of_first_hit hpre hq]
  · have hit := h.2.1
    rw [hno r (ha.1.mem_iff.2 h.1)] at hit
    cases hit

theorem selects_or_no_hit (op : Word) : (∃ r, Selects op r) ∨ ∀ r ∈ opcodeMap, r.hits op = false := by
  obtain ⟨pre, r, post, hrows, hpre, hr⟩ | hno := first_hit_or_no_hit opcodeMap op
  · exact .inl ⟨r, opcodeMap_admissibleOrder.selects_of_first_hit hrows hpre hr⟩
  · exact .inr hno

theorem decodeTag_of_selects {op : Word} {r : Row} (h : Selects op r) : decodeTag op = (r.tag, op &&& ~~~r.mask) :=
  opcodeMap_admissibleOrder.decodeTagIn_of_selects h

theorem decodeTag_of_no_hit {op : Word} (h : ∀ r ∈ opcodeMap, r.hits op = false) :
    decodeTag op = (.invalid, 0#16) :=
  decodeTagIn_of_no_hit h

theorem AdmissibleOrder.decodeTagIn_eq {rows : List Row} (ha : AdmissibleOrder rows) (op : Word) :
    decodeTagIn rows op = decodeTag op := by
  obtain ⟨r, h⟩ | hno := selects_or_no_hit op
  · rw [ha.decodeTagIn_of_selects h, decodeTag_of_selects h]
  · rw [decodeTag_of_no_hit hno, decodeTagIn_of_no_hit fun r hr => hno r (ha.1.mem_iff.1 hr)]

theorem selects_of_decodeTag_ne_invalid {op : Word} (h : (decodeTag op).1 ≠ .invalid) :
    ∃ r, Selects op r ∧ decodeTag op = (r.tag, op &&& ~~~r.mask) := by
  obtain ⟨r, hs⟩ | hno := selects_or_no_hit op
  · exact ⟨r, hs, decodeTag_of_selects hs⟩
  · exact absurd (congrArg Prod.fst (decodeTag_of_no_hit hno)) h

theorem decodeTag_fst_eq_sys_iff (op : Word) :
    (decodeTag op).1 = .sys ↔ op.toNat ≤ 0x0FFF ∧ op ≠ 0x00E0#16 ∧ op ≠ 0x00EE#16 := by
  constructor
  · intro h
    obtain ⟨r, hs, hd⟩ := selects_of_decodeTag_ne_invalid fun hi => absurd (h.symm.trans hi) (by decide)
    have ht : r.tag = .sys := (congrArg Prod.fst hd).symm.trans h
    obtain ⟨hr, hit, hne⟩ := hs
    exact ⟨(hits_sys_iff hr ht).1 hit, hne ht⟩
  · rintro ⟨hle, hne⟩
    have hr : sysRow ∈ opcodeMap := by decide
    exact congrArg Prod.fst (decodeTag_of_selects ⟨hr, (hits_sys_iff hr rfl).2 hle, fun _ => hne⟩)

/-! ### The tag by the nibbles (R80, R81) -/

theorem Selects.tagByNibbles_eq {op : Word} {r : Row} (h : Selects op r) : tagByNibbles op = r.tag := by
  obtain ⟨hr, hit, hsys⟩ := h
  rw [Row.hits_iff] at hit
  simp only [ne_eq, ← BitVec.toNat_inj] at hsys
  fin_cases hr <;>
    simp_all [tagByNibbles, and_FFFF_eq_iff, and_F000_eq_iff, and_F00F_eq_iff, and_F0FF_eq_iff, -Nat.div_eq_zero_iff]

/-- A word that misses a row has other digits than the row's leaf of R80, so it ends in an INVALID leaf. -/
theorem tagByNibbles_of_no_hit {op : Word} (h : ∀ r ∈ opcodeMap, r.hits op = false) : tagByNibbles op = .invalid := by
  simp only [opcodeMap, opcodeRows1, opcodeRows2, opcodeRows3, List.cons_append, List.nil_append, List.forall_mem_cons,
    Row.hits_eq_false_iff, ne_eq] at h
  simp (disch := decide) only [and_FFFF_eq_iff, and_F000_eq_iff, and_F00F_eq_iff, and_F0FF_eq_iff, BitVec.reduceToNat,
    Nat.reduceDiv, Nat.reduceMod] at h
  simp only [tagByNibbles]
  repeat' split
  all_goals simp_all

theorem decodeTag_fst_eq_tagByNibbles (op : Word) : (decodeTag op).1 = tagByNibbles op := by
  obtain ⟨r, h⟩ | hno := selects_or_no_hit op
  · rw [decodeTag_of_selects h, h.tagByNibbles_eq]
  · rw [decodeTag_of_no_hit hno, tagByNibbles_of_no_hit hno]

/-! ### The instruction of a word (R75, R76) -/

theorem ofTag_eq_none_iff {t : Tag} {p : Word} : Instr.ofTag t p = none ↔ t = .invalid := by
  cases t <;> simp [Instr.ofTag]

theorem tag_of_ofTag {t : Tag} {p : Word} {i : Instr} (h : Instr.ofTag t p = some i) : i.tag = t := by
  cases t <;> cases h <;> rfl

theorem ofTag_payload (op : Word) :
    Instr.ofTag (decodeTag op).1 (decodeTag op).2 = Instr.ofTag (decodeTag op).1 op := by
  obtain ⟨r, h⟩ | hno := selects_or_no_hit op
  · rw [decodeTag_of_selects h]
    exact (ofTag_eq_iff_payload h.1).2 (by rw [BitVec.and_assoc, BitVec.and_self])
  · rw [decodeTag_of_no_hit hno]
    rfl

theorem xkk_of_payload {op : Word} (h : (decodeTag op).1 ∈ xkkTags) :
    fieldX (decodeTag op).2 ++ fieldKK (decodeTag op).2 = fieldNNN op := by
  have hmask : ∀ r ∈ opcodeMap, r.tag ∈ xkkTags → r.mask = 0xF000#16 := by decide
  obtain ⟨r, hs, hd⟩ := selects_of_decodeTag_ne_invalid fun hi => absurd (hi ▸ h) (by decide)
  rw [hd] at h ⊢
  rw [← fieldNNN_eq_xkk, hmask r hs.1 h, payload_F000, fieldNNN_nnn]

theorem decodeWord_eq_instr_iff {op : Word} {i : Instr} :
    decodeWord op = .instr i ↔ Instr.ofTag (decodeTag op).1 op = some i := by
  rw [decodeWord, ofTag_payload]
  cases Instr.ofTag (decodeTag op).1 op <;> simp

theorem decodeWord_eq_rejected_iff {op : Word} :
    decodeWord op = .rejected .invalid ↔ (decodeTag op).1 = .invalid := by
  rw [← ofTag_eq_none_iff (p := (decodeTag op).2), decodeWord]
  cases Instr.ofTag (decodeTag op).1 (decodeTag op).2 <;> simp

/-! ### The encoder (R78, R79) -/

theorem ofTag_encode (i : Instr) : Instr.ofTag i.tag (encode i) = some i := by
  cases i with
  | cls | ret => rfl
  | sys | jp | call | ldIAddr | jpV0Addr => simp only [Instr.tag, Instr.ofTag, encode, fieldNNN_nnn]
  | drw => simp only [Instr.tag, Instr.ofTag, encode, fieldX_xyn, fieldY_xyn, fieldN_xyn]
  | seVxByte | sneVxByte | ldVxByte | addVxByte | rnd =>
    simp only [Instr.tag, Instr.ofTag, encode, fieldX_xkk, fieldKK_xkk]
  | seVxVy | sneVxVy | ldVxVy | or | and | xor | addVxVy | sub | shr | subn | shl =>
    simp only [Instr.tag, Instr.ofTag, encode, fieldX_xyn, fieldY_xyn]
  | _ => simp only [Instr.tag, Instr.ofTag, encode, fieldX_xkk]

theorem wf_iff_encode (i : Instr) :
    i.wf = true ↔ (i.tag = .sys → encode i ≠ 0x00E0#16 ∧ encode i ≠ 0x00EE#16) := by
  cases i with
  | sys nnn =>
    have hne (l : Addr) : encode (.sys nnn) = (0x0#4 ++ l : Word) ↔ nnn = l :=
      bv_append_eq_append_iff.trans (and_iff_right rfl)
    simp only [Instr.wf, sysAddrOk, Instr.tag, Bool.and_eq_true, bne_iff_ne, ne_eq, ← hne, forall_const]
    rfl
  | _ => simp [Instr.wf, Instr.tag]

/-- The word of every instruction matches the row that bears its tag. -/
theorem encode_hits (i : Instr) : EncodeMatches.Statement i := by
  cases i with
  | cls => exact EncodeMatches.cls
  | ret => exact EncodeMatches.ret
  | sys nnn => exact EncodeMatches.sys nnn
  | jp nnn => exact EncodeMatches.jp nnn
  | call nnn => exact EncodeMatches.call nnn
  | seVxByte x kk => exact EncodeMatches.seVxByte x kk
  | sneVxByte x kk => exact EncodeMatches.sneVxByte x kk
  | seVxVy x y => exact EncodeMatches.seVxVy x y
  | ldVxByte x kk => exact EncodeMatches.ldVxByte x kk
  | addVxByte x kk => exact EncodeMatches.addVxByte x kk
  | ldVxVy x y => exact EncodeMatches.ldVxVy x y
  | or x y => exact EncodeMatches.or x y
  | and x y => exact EncodeMatches.and x y
  | xor x y => exact EncodeMatches.xor x y
  | addVxVy x y => exact EncodeMatches.addVxVy x y
  | sub x y => exact EncodeMatches.sub x y
  | shr x y => exact EncodeMatches.shr x y
  | subn x y => exact EncodeMatches.subn x y
  | shl x y => exact EncodeMatches.shl x y
  | sneVxVy x y => exact EncodeMatches.sneVxVy x y
  | ldIAddr nnn => exact EncodeMatches.ldIAddr nnn
  | jpV0Addr nnn => exact EncodeMatches.jpV0Addr nnn
  | rnd x kk => exact EncodeMatches.rnd x kk
  | drw x y n => exact EncodeMatches.drw x y n
  | skp x => exact EncodeMatches.skp x
  | sknp x => exact EncodeMatches.sknp x
  | ldVxDt x => exact EncodeMatches.ldVxDt x
  | ldVxK x => exact EncodeMatches.ldVxK x
  | ldDtVx x => exact EncodeMatches.ldDtVx x
  | ldStVx x => exact EncodeMatches.ldStVx x
  | addIVx x => exact EncodeMatches.addIVx x
  | ldFVx x => exact EncodeMatches.ldFVx x
  | ldBVx x => exact EncodeMatches.ldBVx x
  | ldMemIVx x => exact EncodeMatches.ldMemIVx x
  | ldVxMemI x => exact EncodeMatches.ldVxMemI x

theorem selects_encode {i : Instr} (hwf : i.wf = true) : ∃ r, Selects (encode i) r ∧ r.tag = i.tag := by
  obtain ⟨r, hr, ht, hit⟩ := encode_hits i
  exact ⟨r, ⟨hr, hit, fun hs => (wf_iff_encode i).1 hwf (ht ▸ hs)⟩, ht⟩

theorem decodeWord_encode {i : Instr} (hwf : i.wf = true) : decodeWord (encode i) = .instr i := by
  obtain ⟨r, hs, ht⟩ := selects_encode hwf
  rw [decodeWord_eq_instr_iff, decodeTag_of_selects hs, ht, ofTag_encode]

/-- The word and the encoding of its instruction have the same selector, that of the instruction's row, and the same
operands, so the same payload. -/
theorem Selects.encode_eq {op : Word} {r : Row} {i : Instr} (h : Selects op r) (hi : Instr.ofTag r.tag op = some i) :
    encode i = op := by
  obtain ⟨hr, hit, -⟩ := h
  have htag : i.tag = r.tag := tag_of_ofTag hi
  obtain ⟨q, hq, hqt, hqi⟩ := encode_hits i
  obtain rfl : q = r := row_eq_of_tag_eq hq hr (hqt.trans htag)
  have hsel : encode i &&& q.mask = op &&& q.mask := (Row.hits_iff.1 hqi).trans (Row.hits_iff.1 hit).symm
  have hops : Instr.ofTag q.tag (encode i) = Instr.ofTag q.tag op := by rw [hi, ← htag, ofTag_encode]
  exact eq_of_and_eq_of_and_not_eq hsel ((ofTag_eq_iff_payload hr).1 hops)

theorem encode_of_decodeWord {op : Word} {i : Instr} (h : decodeWord op = .instr i) :
    encode i = op ∧ i.wf = true := by
  rw [decodeWord_eq_instr_iff] at h
  have hvalid : (decodeTag op).1 ≠ .invalid := fun hi => by simp [ofTag_eq_none_iff.2 hi] at h
  obtain ⟨r, hs, hd⟩ := selects_of_decodeTag_ne_invalid hvalid
  rw [hd] at h
  have henc : encode i = op := hs.encode_eq h
  exact ⟨henc, (wf_iff_encode i).2 fun ht => henc ▸ hs.2.2 ((tag_of_ofTag h).symm.trans ht)⟩

end Sys2Proof

namespace Sys2Proof.Proofs

open Sys2Proof Sys2Proof.Laws.Encoding

/-- Settles O1: the word of a well-formed instruction belongs to the row of its tag, whose fields are the operands. -/
theorem decodeOfEncodeIsTheInstruction : Obligations.DecodeOfEncodeIsTheInstruction :=
  fun i hwf => ⟨decodeWord_encode hwf, fun rest => (decode_bytes (encode i) rest).trans (decodeWord_encode hwf)⟩

/-- Settles O2: selector and payload of the word are those of the encoding. -/
theorem encodeOfDecodeIsTheWord : Obligations.EncodeOfDecodeIsTheWord :=
  fun _ _ => encode_of_decodeWord

/-- Settles O3: the search for a row stops at the first match; the three examples are evaluated. -/
theorem firstMatchingRowWins : Obligations.FirstMatchingRowWins := by
  refine ⟨fun op pre post r hmap hr hpre => ?_, fun op h => ?_, by decide, by decide, by decide⟩
  · rw [decodeTag, hmap]
    exact decodeTagIn_of_first_hit (fun q hq => Row.hits_eq_false_iff.2 (hpre q hq)) (Row.hits_iff.2 hr)
  · exact decodeTag_of_no_hit fun r hr => Row.hits_eq_false_iff.2 (h r hr)

/-- Settles O4: in every admissible order the first match is the row that the word selects. -/
theorem rowOrderMattersForSysOnly : Obligations.RowOrderMattersForSysOnly :=
  ⟨fun _ hperm hcls hret op => AdmissibleOrder.decodeTagIn_eq ⟨hperm, hcls, hret⟩ op,
    fun _ _ _ hq hr hqo hro hne => rows_overlap_only_sys hq hr hqo hro hne, decodeTag_fst_eq_sys_iff⟩

/-- Settles O5: each row's selector is the digits that R80 names, and only INVALID has no instruction. -/
theorem tagByHighNibble : Obligations.TagByHighNibble := fun op =>
  ⟨decodeTag_fst_eq_tagByNibbles op, by rw [decodeWord_eq_rejected_iff, decodeTag_fst_eq_tagByNibbles]⟩

/-- Settles O6: no mask covers an operand bit. -/
theorem payloadFieldsAreOpcodeFields : Obligations.PayloadFieldsAreOpcodeFields :=
  fun op => ⟨ofTag_payload op, xkk_of_payload⟩

/-- Settles O7, by evaluation of the eleven words. -/
theorem specWordsDecode : Obligations.SpecWordsDecode := by
  unfold Obligations.SpecWordsDecode
  decide

end Sys2Proof.Proofs
end

section
/-! PROOF. The cycle (40_cycle.md): what each move does in each control state, the transitions of the control state machine,
pc after an instruction, the end of a run, and the ALU's table.
A move is read by the `stepWith_` lemma of its kind: a tick and a key press act alike in Ready and in WaitKey, and the
CORE's turn in Ready is the fetch, the decoding and the instruction of R101. -/

namespace Sys2Proof.Machine

open Sys2Proof.Laws.Encoding Sys2Proof.Claims

/-! ### One move, by its kind (R100, R104, R115) -/

theorem State.running_iff {s : State} : s.running = true ↔ s.fsm = .ready ∨ ∃ x, s.fsm = .waitKey x := by
  cases hf : s.fsm <;> simp [State.running, hf]

theorem stepWith_tick {s : State} (p : Config.InvalidPolicy) (hr : s.running = true) (hm : s.nextMove = .tick) :
    stepWith p s = .next s.dropMove.tick := by
  obtain hf | ⟨x, hf⟩ := State.running_iff.1 hr
  · rw [stepWith_ready p hf, hm]
  · rw [stepWith_waitKey p hf, hm]

theorem stepWith_keyPress {s : State} {k : Nibble} (p : Config.InvalidPolicy) (hr : s.running = true)
    (hm : s.nextMove = .keyPress k) : stepWith p s = .next (s.dropMove.keyPress k) := by
  obtain hf | ⟨x, hf⟩ := State.running_iff.1 hr
  · rw [stepWith_ready p hf, hm]
  · rw [stepWith_waitKey p hf, hm]

theorem stepWith_waitKey_turn {s : State} {x : Nibble} (p : Config.InvalidPolicy) (hw : s.fsm = .waitKey x)
    (hm : s.nextMove = .step) : stepWith p s = .next s.dropMove := by
  rw [stepWith_waitKey p hw, hm]

theorem State.dropMove_fixed {s : State} (h : s.host ≠ []) : s.dropMove = { s with host := s.host.tail } := by
  simp [State.dropMove, h]

theorem State.dropMove_free {s : State} (h : s.host = []) : s.dropMove = { s with draws := s.draws + 1 } := by
  simp [State.dropMove, h]

/-- The schedule and the draw counter count in a move only by the move they name and by what it leaves of them. -/
theorem stepWith_congr {s t : State} (p : Config.InvalidPolicy) (hf : s.fsm = t.fsm) (hm : s.nextMove = t.nextMove)
    (hd : s.dropMove = t.dropMove) : stepWith p s = stepWith p t := by
  simp only [stepWith, hf, hm, hd]

theorem State.keyPress_of_ready {s : State} (k : Nibble) (hr : s.fsm = .ready) : s.keyPress k = s := by
  simp only [State.keyPress, hr]

theorem State.keyPress_of_waitKey {s : State} {x : Nibble} (k : Nibble) (hw : s.fsm = .waitKey x) :
    s.keyPress k = { s.setReg x (keyByte k) with fsm := .ready } := by
  simp only [State.keyPress, hw]

theorem stepWith_ready_keyPress {s : State} {k : Nibble} (p : Config.InvalidPolicy) (hr : s.fsm = .ready)
    (hm : s.nextMove = .keyPress k) : stepWith p s = .next s.dropMove := by
  rw [stepWith_keyPress p (State.running_iff.2 (.inl hr)) hm, State.keyPress_of_ready (s := s.dropMove) k hr]

theorem stepWith_waitKey_keyPress {s : State} {x k : Nibble} (p : Config.InvalidPolicy) (hw : s.fsm = .waitKey x)
    (hm : s.nextMove = .keyPress k) :
    stepWith p s = .next { s.dropMove.setReg x (keyByte k) with fsm := .ready } := by
  rw [stepWith_keyPress p (State.running_iff.2 (.inr ⟨x, hw⟩)) hm, State.keyPress_of_waitKey (s := s.dropMove) k hw]

theorem keyByte_toNat (k : Nibble) : (keyByte k).toNat = k.toNat :=
  BitVec.toNat_setWidth_of_le (by decide)

/-! ### The step of R101 -/

theorem cycle_of_fetch_error {s : State} {a : Nat} (p : Config.InvalidPolicy) (h : fetch s.mem s.pc = .error a) :
    cycle p s = .next (s.raiseFetch a) := by
  simp only [cycle, h]

theorem cycle_of_instr {s : State} {op : Word} {i : Instr} (p : Config.InvalidPolicy)
    (hf : fetch s.mem s.pc = .ok op) (hd : decodeWord op = .instr i) : cycle p s = exec i s.advance := by
  rw [cycle_fetched p hf, hd]

theorem cycle_of_rejected {s : State} {op : Word} {r : Reject} (p : Config.InvalidPolicy)
    (hf : fetch s.mem s.pc = .ok op) (hd : decodeWord op = .rejected r) :
    cycle p s = .next (s.advance.execInvalid p op) := by
  rw [cycle_fetched p hf, hd]

/-- In Ready, at the CORE's turn, the fetched instruction runs with pc advanced and the move used up. -/
theorem stepWith_of_instr {s : State} {op : Word} {i : Instr} (p : Config.InvalidPolicy) (hr : s.fsm = .ready)
    (hm : s.nextMove = .step) (hf : fetch s.mem s.pc = .ok op) (hd : decodeWord op = .instr i) :
    stepWith p s = exec i s.dropMove.advance :=
  (stepWith_turn p hr hm).trans (cycle_of_instr p hf hd)

/-! ### Every move of a running machine has a next state (R100) -/

theorem cycle_next (p : Config.InvalidPolicy) (s : State) : ∃ t, cycle p s = .next t := by
  cases hf : fetch s.mem s.pc with
  | error a => exact ⟨_, cycle_of_fetch_error p hf⟩
  | ok op =>
    cases hd : decodeWord op with
    | instr i => exact ⟨_, (cycle_of_instr p hf hd).trans (exec_eq i _)⟩
    | rejected r => exact ⟨_, cycle_of_rejected p hf hd⟩

theorem stepWith_next {s : State} (p : Config.InvalidPolicy) (hr : s.running = true) : ∃ t, stepWith p s = .next t := by
  cases hm : s.nextMove with
  | tick => exact ⟨_, stepWith_tick p hr hm⟩
  | keyPress k => exact ⟨_, stepWith_keyPress p hr hm⟩
  | step =>
    obtain hf | ⟨x, hf⟩ := State.running_iff.1 hr
    · rw [stepWith_turn p hf hm]
      exact cycle_next p _
    · exact ⟨_, stepWith_waitKey_turn p hf hm⟩

/-! ### The control state after a move (R100, R115) -/

/-- An instruction faults, keeps the control state, or is LD Vx, K and enters the key wait of its register. -/
theorem effect_fsm_cases (i : Instr) (s : State) :
    (∃ r, (effect i s).fsm = .faulted r) ∨ (effect i s).fsm = s.fsm ∨
      ∃ x, i = .ldVxK x ∧ (effect i s).fsm = .waitKey x := by
  cases hf : faultOf i s with
  | some k => exact .inl ⟨_, by rw [effect_of_fault hf, State.raise_fsm]⟩
  | none =>
    rw [effect_of_none hf, complete_fsm]
    cases i with
    | ldVxK x => exact .inr (.inr ⟨x, rfl, rfl⟩)
    | _ => exact .inr (.inl rfl)

theorem execInvalid_fsm_cases (p : Config.InvalidPolicy) (op : Word) (s : State) :
    (s.execInvalid p op).fsm = s.fsm ∨ ∃ r, (s.execInvalid p op).fsm = .faulted r := by
  cases p with
  | fatal => exact .inr ⟨_, rfl⟩
  | skip => exact .inl rfl

theorem cycle_fsm_cases {p : Config.InvalidPolicy} {s t : State} (hr : s.fsm = .ready) (h : cycle p s = .next t) :
    t.fsm = .ready ∨ (∃ r, t.fsm = .faulted r) ∨
      ∃ x op, fetch s.mem s.pc = .ok op ∧ decodeWord op = .instr (.ldVxK x) ∧ t.fsm = .waitKey x := by
  obtain ⟨a, -, rfl⟩ | ⟨op, -, -, rfl⟩ | ⟨op, i, hf, hd, rfl⟩ := cycle_cases h
  · exact .inr (.inl ⟨_, rfl⟩)
  · obtain hk | hfault := execInvalid_fsm_cases p op s.advance
    · exact .inl (hk.trans hr)
    · exact .inr (.inl hfault)
  · obtain hfault | hk | ⟨x, rfl, hw⟩ := effect_fsm_cases i s.advance
    · exact .inr (.inl hfault)
    · exact .inl (hk.trans hr)
    · exact .inr (.inr ⟨x, op, hf, hd, hw⟩)

theorem cycle_fsm_of_ldVxK {p : Config.InvalidPolicy} {s t : State} {x : Nibble} {op : Word}
    (hf : fetch s.mem s.pc = .ok op) (hd : decodeWord op = .instr (.ldVxK x)) (h : cycle p s = .next t) :
    t.fsm = .waitKey x := by
  rw [cycle_of_instr p hf hd] at h
  cases h
  rfl

/-- The transitions out of Ready at the CORE's turn: LD Vx, K, and no other instruction, leads to the key wait. -/
theorem stepWith_fsm_of_turn {p : Config.InvalidPolicy} {s t : State} (hr : s.fsm = .ready) (hm : s.nextMove = .step)
    (h : stepWith p s = .next t) :
    (t.fsm = .ready ∨ (∃ r, t.fsm = .faulted r) ∨
      ∃ x op, fetch s.mem s.pc = .ok op ∧ decodeWord op = .instr (.ldVxK x) ∧ t.fsm = .waitKey x) ∧
    ∀ x op, fetch s.mem s.pc = .ok op → decodeWord op = .instr (.ldVxK x) → t.fsm = .waitKey x := by
  rw [stepWith_turn p hr hm] at h
  exact ⟨cycle_fsm_cases (s := s.dropMove) hr h, fun x op hf hd => cycle_fsm_of_ldVxK (s := s.dropMove) hf hd h⟩

/-- The transitions out of Ready by a host event. -/
theorem stepWith_fsm_of_event {p : Config.InvalidPolicy} {s t : State} (hr : s.fsm = .ready) (hm : s.nextMove ≠ .step)
    (h : stepWith p s = .next t) : t.fsm = .ready := by
  have hrun : s.running = true := State.running_iff.2 (.inl hr)
  cases hk : s.nextMove with
  | step => exact absurd hk hm
  | tick =>
    rw [stepWith_tick p hrun hk] at h
    cases h
    exact hr
  | keyPress k =>
    rw [stepWith_ready_keyPress p hr hk] at h
    cases h
    exact hr

/-- The transitions out of WaitKey(x): a key press ends the wait with its number in `V[x]`, any other move keeps it. -/
theorem stepWith_fsm_of_waitKey {p : Config.InvalidPolicy} {s t : State} {x : Nibble} (hw : s.fsm = .waitKey x)
    (h : stepWith p s = .next t) :
    (∃ k, s.nextMove = .keyPress k ∧ (t.reg x).toNat = k.toNat ∧ t.fsm = .ready) ∨
      ((∀ k, s.nextMove ≠ .keyPress k) ∧ t.fsm = .waitKey x) := by
  have hrun : s.running = true := State.running_iff.2 (.inr ⟨x, hw⟩)
  cases hk : s.nextMove with
  | step =>
    rw [stepWith_waitKey_turn p hw hk] at h
    cases h
    exact .inr ⟨nofun, hw⟩
  | tick =>
    rw [stepWith_tick p hrun hk] at h
    cases h
    exact .inr ⟨nofun, hw⟩
  | keyPress k =>
    rw [stepWith_waitKey_keyPress p hw hk] at h
    cases h
    refine .inl ⟨k, rfl, ?_, rfl⟩
    rw [← keyByte_toNat k]
    exact congrArg BitVec.toNat (State.setReg_reg_same x (keyByte k) s.dropMove)

/-! ### pc after an instruction (R102, R107) -/

theorem complete_pc_kept {i : Instr} (h : writesPc i = false) (s : State) : (complete i s).pc = s.pc := by
  cases i with
  | ret | jp | call | jpV0Addr | seVxByte | sneVxByte | seVxVy | sneVxVy | skp | sknp => cases h
  | _ => rfl

theorem State.skipIf_pc_cases (c : Bool) (s : State) : (s.skipIf c).pc = s.pc ∨ (s.skipIf c).pc = s.pc + 2#16 := by
  cases c with
  | false => exact .inl rfl
  | true => exact .inr rfl

theorem complete_pc_of_skip {i : Instr} (h : isSkip i = true) (s : State) :
    (complete i s).pc = s.pc ∨ (complete i s).pc = s.pc + 2#16 := by
  cases i with
  | seVxByte | sneVxByte | seVxVy | sneVxVy | skp | sknp => exact State.skipIf_pc_cases _ s
  | _ => cases h

/-! ### A placed word (R53) -/

theorem fetch_setWord {m : Memory} (hm : Memory.wf m = true) {pc : Word} (h : pc.toNat + 1 < Config.memSize)
    (op : Word) : fetch (Memory.setWord m pc.toNat op) pc = .ok op := by
  have hwf : Memory.wf (Memory.set m pc.toNat (hiByte op)) = true := Memory.wf_set hm (by omega) _
  rw [fetch_ok h, Memory.setWord, Memory.byte_set hwf, Memory.byte_set hwf, Memory.byte_set hm, if_pos rfl, if_pos rfl,
    if_neg (Nat.ne_of_lt (Nat.lt_succ_self _)), wordOfBytes_hi_lo]

theorem decodeWord_of_decodeTableWord {n w : Nat} {i : Instr} (h : decodeTableWord n w = some i) :
    decodeWord (tableWord n w) = .instr i := by
  rw [decodeTableWord, decode_bytes] at h
  cases hd : decodeWord (tableWord n w) with
  | instr j =>
    rw [hd] at h
    cases h
    rfl
  | rejected r =>
    rw [hd] at h
    cases h

theorem State.withFetchWord_pc_lt (s : State) (n w : Nat) : (s.withFetchWord n w).pc.toNat + 1 < Config.memSize := by
  simp only [State.withFetchWord]
  split
  · assumption
  · decide

theorem State.fetch_withFetchWord {s : State} (hm : Memory.wf s.mem = true) (n w : Nat) :
    fetch (s.withFetchWord n w).mem (s.withFetchWord n w).pc = .ok (tableWord n w) :=
  fetch_setWord hm (s.withFetchWord_pc_lt n w) _

/-! ### The end of a run (R117) -/

/-- `t` is `s` but for the two timers, the schedule and the draw counter. -/
def State.SameButTimersAndMoves (s t : State) : Prop :=
  ∃ dt st h d, t = { s with DT := dt, ST := st, host := h, draws := d }

theorem State.SameButTimersAndMoves.trans {s t u : State} (h : s.SameButTimersAndMoves t)
    (h' : t.SameButTimersAndMoves u) : s.SameButTimersAndMoves u := by
  obtain ⟨_, _, _, _, rfl⟩ := h
  obtain ⟨_, _, _, _, rfl⟩ := h'
  exact ⟨_, _, _, _, rfl⟩

theorem State.SameButTimersAndMoves.atEnd {s t : State} {e : Addr} (h : s.SameButTimersAndMoves t) (hs : s.atEnd e) :
    t.atEnd e := by
  obtain ⟨_, _, _, _, rfl⟩ := h
  exact hs

/-- At the end of a run the CORE's turn is `JP e` at `e`, which puts pc back to `e`. -/
theorem stepWith_turn_of_atEnd {s : State} {e : Addr} (p : Config.InvalidPolicy) (h : s.atEnd e)
    (hm : s.nextMove = .step) : stepWith p s = .next s.dropMove := by
  obtain ⟨hr, hpc, hfetch⟩ := h
  rw [stepWith_of_instr p hr hm hfetch (decodeWord_encode rfl)]
  exact congrArg (fun a => Host.Outcome.next { s.dropMove with pc := a }) hpc.symm

theorem stepWith_of_atEnd {s : State} {e : Addr} (p : Config.InvalidPolicy) (h : s.atEnd e) :
    ∃ t, stepWith p s = .next t ∧ s.SameButTimersAndMoves t := by
  have hrun : s.running = true := State.running_iff.2 (.inl h.1)
  cases hm : s.nextMove with
  | step => exact ⟨_, stepWith_turn_of_atEnd p h hm, _, _, _, _, rfl⟩
  | tick => exact ⟨_, stepWith_tick p hrun hm, _, _, _, _, rfl⟩
  | keyPress k => exact ⟨_, stepWith_ready_keyPress p h.1 hm, _, _, _, _, rfl⟩

theorem run_of_atEnd (n : Nat) {s : State} {e : Addr} (h : s.atEnd e) :
    ∃ t : State, Sys2Proof.core.run n s = .next t ∧ s.SameButTimersAndMoves t := by
  induction n generalizing s with
  | zero => exact ⟨s, rfl, _, _, _, _, rfl⟩
  | succ n ih =>
    obtain ⟨t, hstep, hst⟩ := stepWith_of_atEnd invalidPolicy h
    obtain ⟨u, hrun, htu⟩ := ih (hst.atEnd h)
    exact ⟨u, (run_succ n hstep).trans hrun, hst.trans htu⟩

/-! ### The ALU on unbounded integers (R111) -/

theorem byte_sub_toNat (a b : Byte) :
    (a - b).toNat = if a.toNat ≥ b.toNat then a.toNat - b.toNat else a.toNat + 256 - b.toNat := by
  have ha := a.isLt
  have hb := b.isLt
  rw [BitVec.toNat_sub]
  split <;> omega

theorem byte_shr_toNat (a : Byte) : (a >>> 1).toNat = a.toNat / 2 := by
  rw [BitVec.toNat_ushiftRight, Nat.shiftRight_eq_div_pow]

theorem byte_shl_toNat (a : Byte) : (a <<< 1).toNat = a.toNat * 2 % 256 := by
  rw [BitVec.toNat_shiftLeft, Nat.shiftLeft_eq]

theorem byte_getLsbD_zero (a : Byte) : a.getLsbD 0 = decide (a.toNat % 2 = 1) := by
  rw [← BitVec.testBit_toNat, Nat.testBit_zero]

theorem byte_getLsbD_seven (a : Byte) : a.getLsbD 7 = decide (a.toNat / 128 = 1) := by
  have ha := a.isLt
  rw [← BitVec.testBit_toNat, Nat.testBit_eq_decide_div_mod_eq]
  exact decide_eq_decide.2 (by omega)

end Sys2Proof.Machine

namespace Sys2Proof.Proofs

open Sys2Proof Sys2Proof.Machine

/-- Settles O35, by induction on the number of moves: each of them changes only the timers, the schedule and the draw
counter, none of which the end of a run depends on. -/
theorem endOfRunIsStable : Obligations.EndOfRunIsStable := by
  intro n s e h
  obtain ⟨t, hrun, hst⟩ := run_of_atEnd n h
  refine ⟨t, hrun, hst.atEnd h, ?_⟩
  obtain ⟨_, _, _, _, rfl⟩ := hst
  exact ⟨fun _ _ => rfl, rfl, ⟨rfl, rfl⟩, rfl, rfl⟩

/-- Settles O16, by the control state the move starts from. -/
theorem onlyTheseTransitions : Obligations.OnlyTheseTransitions := by
  refine fun p s => ⟨fun hr => stepWith_next p (State.running_iff.2 hr), fun t h => ?_⟩
  obtain hr | ⟨x, hw⟩ := State.running_iff.1 (stepWith_cases h).1
  · by_cases hm : s.nextMove = .step
    · exact .inl ⟨hr, hm, stepWith_fsm_of_turn hr hm h⟩
    · exact .inr (.inl ⟨hr, hm, stepWith_fsm_of_event hr hm h⟩)
  · exact .inr (.inr ⟨x, hw, stepWith_fsm_of_waitKey hw h⟩)

/-- Settles O22: the placed move comes first, and the fetch at pc reads the placed word. -/
theorem placedWordIsRunByTheNextStep : Obligations.PlacedWordIsRunByTheNextStep := fun _s w _i hm hd =>
  stepWith_of_instr invalidPolicy rfl rfl (State.fetch_withFetchWord hm 16 w) (decodeWord_of_decodeTableWord hd)

/-- Settles O32: of the instructions that complete, only control transfers and skips write pc. -/
theorem pcStaysAdvancedOrSkips : Obligations.PcStaysAdvancedOrSkips := by
  intro i s t h hr
  obtain ⟨-, rfl⟩ := exec_running h hr
  exact ⟨fun hi => complete_pc_kept hi s, fun hi => complete_pc_of_skip hi s⟩

/-- Settles O8, one clause for each answer of the fetch and of the decoder. -/
theorem stepFetchesDecodesAdvancesExecutes : Obligations.StepFetchesDecodesAdvancesExecutes := by
  refine fun p s hr hm => ⟨fun a hf => ?_, fun op i hf hd => stepWith_of_instr p hr hm hf hd, fun op hf hd => ?_⟩
  · exact ⟨_, _, (stepWith_turn p hr hm).trans (cycle_of_fetch_error p hf), rfl, rfl⟩
  · exact (stepWith_turn p hr hm).trans (cycle_of_rejected p hf hd)

/-- Settles O9: below 4095 the fetch is the word of the two bytes at pc. -/
theorem stepRunsTheInstructionAtPc : Obligations.StepRunsTheInstructionAtPc :=
  fun _s _i hr hm hpc hd => stepWith_of_instr invalidPolicy hr hm (fetch_ok hpc) hd

/-- Settles O12: the end of a run is in Ready. -/
theorem faultedIsTerminal : Obligations.FaultedIsTerminal :=
  fun p _s _r hf => ⟨stepWith_faulted p hf, fun _e he => Fsm.noConfusion (hf.symm.trans he.1)⟩

/-- Settles O13, one case for each move. -/
theorem keyWaitHoldsTheCore : Obligations.KeyWaitHoldsTheCore := by
  intro p s x hw
  have hrun : s.running = true := State.running_iff.2 (.inr ⟨x, hw⟩)
  cases hm : s.nextMove with
  | step =>
    exact ⟨_, stepWith_waitKey_turn p hw hm, rfl, fun _ => rfl, rfl, ⟨rfl, rfl⟩, fun _ => rfl, nofun, nofun⟩
  | tick =>
    exact ⟨_, stepWith_tick p hrun hm, rfl, fun _ => rfl, rfl, ⟨rfl, rfl⟩, nofun, fun _ => ⟨hw, fun _ _ => rfl⟩, nofun⟩
  | keyPress k =>
    exact ⟨_, stepWith_waitKey_keyPress p hw hm, rfl, fun _ => rfl, rfl, ⟨rfl, rfl⟩, nofun, nofun, fun _ _ => rfl⟩

/-- Settles O44, row by row of R111. -/
theorem aluTable : Obligations.AluTable := fun a b =>
  ⟨rfl, ⟨BitVec.toNat_add a b, rfl⟩, rfl, rfl, rfl, ⟨BitVec.toNat_add a b, rfl⟩, ⟨byte_sub_toNat a b, rfl⟩,
    ⟨byte_sub_toNat b a, rfl⟩, ⟨byte_shr_toNat a, congrArg some (byte_getLsbD_zero a)⟩,
    ⟨byte_shl_toNat a, congrArg some (byte_getLsbD_seven a)⟩, rfl, rfl⟩

/-- Settles O60: the first move of the schedule is the one taken, and an empty schedule acts as the one of the drawn move. -/
theorem everyMoveMayComeNext : Obligations.EveryMoveMayComeNext := by
  intro p s ms hs
  have hrun (h : List Config.HostMove) : { s with host := h }.running = true := State.running_iff.2 hs
  refine ⟨stepWith_tick p (hrun _) rfl, fun k => stepWith_keyPress p (hrun _) rfl, ?_, stepWith_congr p rfl rfl rfl,
    State.dropMove_fixed, State.dropMove_free⟩
  obtain hr | ⟨x, hw⟩ := hs
  · rw [if_pos hr]
    exact stepWith_turn p hr rfl
  · rw [if_neg (by simp [hw])]
    exact stepWith_waitKey_turn p hw rfl

end Sys2Proof.Proofs
end

section
/-! PROOF. Control flow (41_control_flow.md): the jumps, CALL and RET, and a RET right after a CALL.
Each instruction is read by its equation (`exec_call_room`, `exec_ret_some`, or rfl for a jump); two frame lemmas say what a
state with another pc, or with another pc and stack, has in common with the first. -/

namespace Sys2Proof.Machine

/-! ### Frames -/

theorem State.sameButPc_withPc (s : State) (a : Word) : s.SameButPc { s with pc := a } :=
  ⟨fun _ _ => rfl, rfl, ⟨rfl, rfl⟩, ⟨rfl, rfl⟩, fun _ => rfl, ⟨rfl, rfl, rfl⟩⟩

theorem State.sameButPcStack_withPcStack (s : State) (a : Word) (k : Fin 17) (st : Vector Word 16) :
    s.SameButPcStack { s with pc := a, SP := k, stack := st } :=
  ⟨fun _ _ => rfl, rfl, ⟨rfl, rfl⟩, fun _ => rfl, ⟨rfl, rfl, rfl⟩⟩

/-! ### Targets (R131, R133) -/

theorem addrWord_toNat (nnn : Addr) : (addrWord nnn).toNat = nnn.toNat :=
  BitVec.toNat_setWidth_of_le (by decide)

theorem byteWord_toNat (b : Byte) : (byteWord b).toNat = b.toNat :=
  BitVec.toNat_setWidth_of_le (by decide)

/-- The target of JP V0 is at most 4095 + 255, so the 16-bit sum does not wrap. -/
theorem addrWord_add_byteWord_toNat (nnn : Addr) (b : Byte) :
    (addrWord nnn + byteWord b).toNat = nnn.toNat + b.toNat := by
  have hn := nnn.isLt
  have hb := b.isLt
  rw [BitVec.toNat_add, addrWord_toNat, byteWord_toNat]
  exact Nat.mod_eq_of_lt (by omega)

/-! ### RET on a pushed slot (R108, R109) -/

/-- RET pops what was pushed last: the pushed word goes to pc, SP is back where it was, and the slot keeps the word. -/
theorem exec_ret_pushed {s : State} (h : s.SP.val < 16) (v a : Word) :
    exec .ret { s with pc := a, SP := ⟨s.SP.val + 1, Nat.succ_lt_succ h⟩, stack := s.stack.set s.SP.val v h } =
      .next { s with pc := v, stack := s.stack.set s.SP.val v h } := by
  have htop : (s.stack.set s.SP.val v h)[s.SP.val]'h = v := Vector.getElem_set_self h
  rw [exec_ret_some (Nat.succ_ne_zero s.SP.val)]
  simp only [Nat.add_sub_cancel, htop]

end Sys2Proof.Machine

namespace Sys2Proof.Proofs

open Sys2Proof Sys2Proof.Machine

/-- Settles O38: the CALL pushes pc, and the RET runs on the state in which that push is the last. -/
theorem retAfterCallReturns : Obligations.RetAfterCallReturns := by
  intro nnn s h
  refine ⟨_, _, exec_call_room h, exec_ret_pushed h s.pc (addrWord nnn + 2#16), rfl, rfl, fun j => ?_,
    s.sameButPcStack_withPcStack _ _ _⟩
  simp only [Vector.getElem_set, eq_comm]

/-- Settles O36: with an entry on the stack RET pops it. -/
theorem retPopsIntoPc : Obligations.RetPopsIntoPc :=
  fun s h => ⟨_, exec_ret_some h, rfl, rfl, rfl, s.sameButPcStack_withPcStack _ _ _⟩

/-- Settles O37: with room on the stack CALL writes the slot at SP and no other. -/
theorem callPushesAndJumps : Obligations.CallPushesAndJumps := fun nnn s h =>
  ⟨_, exec_call_room h, addrWord_toNat nnn, rfl, Vector.getElem_set_self h,
    fun j hj => Vector.getElem_set_ne h j.isLt hj.symm, s.sameButPcStack_withPcStack _ _ _⟩

/-- Settles O40: a jump answers the state with pc at its target. -/
theorem jumpsSetPc : Obligations.JumpsSetPc := fun nnn s =>
  ⟨⟨_, rfl, addrWord_toNat nnn, s.sameButPc_withPc _⟩,
    ⟨_, rfl, addrWord_add_byteWord_toNat nnn (s.reg 0#4), s.sameButPc_withPc _⟩⟩

end Sys2Proof.Proofs
end

section
/-! PROOF. The conditional skips (42_skips.md): SE and SNE, SKP and SKNP.
Each of the six is `skipIf` on a Boolean that reflects the condition of its rule, or, for SNE and SKNP, on its negation. -/

namespace Sys2Proof.Machine

/-! ### A skip under a condition (R107) -/

theorem State.skipIf_pc_of_iff {c : Bool} {P : Prop} [Decidable P] (h : c = true ↔ P) (s : State) :
    (s.skipIf c).pc = if P then s.pc + 2#16 else s.pc :=
  if_congr h rfl rfl

theorem State.skipIf_not_pc_of_iff {c : Bool} {P : Prop} [Decidable P] (h : c = true ↔ P) (s : State) :
    (s.skipIf !c).pc = if P then s.pc else s.pc + 2#16 := by
  have hn : (!c) = true ↔ ¬ P := by rw [Bool.not_eq_true', ← h, Bool.not_eq_true]
  rw [State.skipIf_pc_of_iff hn, ite_not]

theorem State.sameButPc_skipIf (s : State) (c : Bool) : s.SameButPc (s.skipIf c) :=
  s.sameButPc_withPc _

/-- The frame does not speak of the draw counter, which is no state of the CORE (log 4). -/
theorem State.SameButPc.drawn {s t : State} (h : s.SameButPc t) : s.SameButPc t.drawn := h

/-- The fault of an instruction leaves the record that R258 asks for. -/
theorem State.tookFault_raise (s : State) (k : FaultKind) (i : Instr) : s.TookFault k i (s.raise k i) := rfl

end Sys2Proof.Machine

namespace Sys2Proof.Proofs

open Sys2Proof Sys2Proof.Machine

/-- Settles O42: SE skips on `==` and SNE on its negation, which reflect equality of the operands. -/
theorem comparisonSkips : Obligations.ComparisonSkips := fun _x _y _kk s =>
  ⟨⟨_, _, rfl, rfl, s.skipIf_pc_of_iff beq_iff_eq, s.skipIf_not_pc_of_iff beq_iff_eq,
      s.sameButPc_skipIf _, s.sameButPc_skipIf _⟩,
    ⟨_, _, rfl, rfl, s.skipIf_pc_of_iff beq_iff_eq, s.skipIf_not_pc_of_iff beq_iff_eq,
      s.sameButPc_skipIf _, s.sameButPc_skipIf _⟩⟩

/-- Settles O43, split at the largest key number: up to 0xF the drawn answer decides, above it both take the fault. -/
theorem keySkips : Obligations.KeySkips := by
  refine fun x s => ⟨fun hkey => ?_, fun hrange => ?_⟩
  · exact ⟨_, _, exec_skp_key hkey, exec_sknp_key hkey, s.skipIf_pc_of_iff Iff.rfl, s.skipIf_not_pc_of_iff Iff.rfl,
      (s.sameButPc_skipIf _).drawn, (s.sameButPc_skipIf _).drawn⟩
  · exact ⟨_, _, exec_skp_range hrange, exec_sknp_range hrange, s.tookFault_raise _ _, s.tookFault_raise _ _⟩

end Sys2Proof.Proofs
end

section
/-! PROOF. The register and ALU instructions (43_alu.md).
All but RND are an `aluStep`. Two groups of rules say what one leaves: where the operation has no flag, the result in V[x] and
the rest as it was; where it has one, the flag in VF as well, written last. The arithmetic of each operation is then that of
the ALU's table. -/

namespace Sys2Proof.Machine

/-! ### What an ALU instruction leaves (R110, R112) -/

section
variable {op : AluOp} {x : Nibble} {b : Operand} {s : State}

/-- Beside the general registers an ALU instruction writes nothing. -/
theorem State.aluStep_sameButRegs {xs : List Nibble} (h : s.SameRegsBut xs (s.aluStep op x b)) :
    s.SameButRegs xs (s.aluStep op x b) :=
  ⟨h, State.aluStep_pc .., State.aluStep_I .., ⟨State.aluStep_SP .., State.aluStep_stack ..⟩,
    ⟨State.aluStep_DT .., State.aluStep_ST ..⟩, fun a => congrArg (Memory.byte · a) (State.aluStep_mem ..),
    ⟨State.aluStep_fsm .., State.aluStep_host .., State.aluStep_sent ..⟩⟩

theorem State.aluStep_reg_dest_of_no_flag (hf : (alu op (s.reg x) (b.value s)).f = none) :
    (s.aluStep op x b).reg x = (alu op (s.reg x) (b.value s)).r := by
  simp only [State.aluStep_reg, hf, if_true]

theorem State.aluStep_sameButRegs_of_no_flag (hf : (alu op (s.reg x) (b.value s)).f = none) :
    s.SameButRegs [x] (s.aluStep op x b) :=
  State.aluStep_sameButRegs fun _ hz => State.aluStep_reg_other (List.ne_of_not_mem_cons hz) (absurd hf)

/-- What the two rules above say of an instruction without a flag: the result, nothing else. -/
theorem State.aluStep_unflagged (hf : (alu op (s.reg x) (b.value s)).f = none) :
    (s.aluStep op x b).reg x = (alu op (s.reg x) (b.value s)).r ∧ s.SameButRegs [x] (s.aluStep op x b) :=
  ⟨State.aluStep_reg_dest_of_no_flag hf, State.aluStep_sameButRegs_of_no_flag hf⟩

/-- Away from VF the flag does not overwrite the result. -/
theorem State.aluStep_reg_dest_of_ne_flag (hx : x ≠ 0xF#4) :
    (s.aluStep op x b).reg x = (alu op (s.reg x) (b.value s)).r := by
  rw [State.aluStep_reg]
  split
  · exact if_pos rfl
  · rw [if_neg hx, if_pos rfl]

/-- The flag is written last: VF holds it even where it is the destination (D9). -/
theorem State.aluStep_reg_flag {f : Bool} (hf : (alu op (s.reg x) (b.value s)).f = some f) :
    (s.aluStep op x b).reg 0xF#4 = flagByte f := by
  simp only [State.aluStep_reg, hf, if_true]

theorem State.aluStep_sameButRegs_dest_flag : s.SameButRegs [x, 0xF#4] (s.aluStep op x b) :=
  State.aluStep_sameButRegs fun _ hz => State.aluStep_reg_other (List.ne_of_not_mem_cons hz) fun _ =>
    List.ne_of_not_mem_cons (List.not_mem_of_not_mem_cons hz)

/-- What the three rules above say of an instruction with a flag, in the numbers of R111: the result `r` unless x is F, the
flag `n` in VF, nothing else. -/
theorem State.aluStep_flagged {f : Bool} {r n : Nat} (hf : (alu op (s.reg x) (b.value s)).f = some f)
    (hr : (alu op (s.reg x) (b.value s)).r.toNat = r) (hn : (flagByte f).toNat = n) :
    (x ≠ 0xF#4 → ((s.aluStep op x b).reg x).toNat = r) ∧ ((s.aluStep op x b).reg 0xF#4).toNat = n ∧
      s.SameButRegs [x, 0xF#4] (s.aluStep op x b) :=
  ⟨fun hx => (congrArg BitVec.toNat (State.aluStep_reg_dest_of_ne_flag hx)).trans hr,
    (congrArg BitVec.toNat (State.aluStep_reg_flag hf)).trans hn, State.aluStep_sameButRegs_dest_flag⟩

end

/-! ### One register written (R22) -/

theorem State.sameButRegs_setReg (s : State) (x : Nibble) (v : Byte) : s.SameButRegs [x] (s.setReg x v) :=
  ⟨fun _ hz => State.setReg_reg_other _ _ _ _ (List.ne_of_not_mem_cons hz), rfl, rfl, ⟨rfl, rfl⟩, ⟨rfl, rfl⟩,
    fun _ => rfl, ⟨rfl, rfl, rfl⟩⟩

/-- The frame does not speak of the draw counter, which is no state of the CORE (log 4). -/
theorem State.SameButRegs.drawn {xs : List Nibble} {s t : State} (h : s.SameButRegs xs t) : s.SameButRegs xs t.drawn :=
  h

/-! ### Flags and differences as numbers (R111) -/

theorem flagByte_decide_toNat (P : Prop) [Decidable P] : (flagByte (decide P)).toNat = if P then 1 else 0 := by
  by_cases h : P <;> simp [flagByte, h]

/-- A number below 2 is the flag of its being 1. -/
theorem flagByte_decide_eq_one_toNat {n : Nat} (h : n < 2) : (flagByte (decide (n = 1))).toNat = n := by
  rw [flagByte_decide_toNat]
  split <;> omega

theorem byte_sub_toNat_mod (a b : Byte) : (a - b).toNat = (a.toNat + 256 - b.toNat) % 256 := by
  have hb := b.isLt
  rw [BitVec.toNat_sub]
  congr 1
  omega

theorem byte_bit_zero_flag_toNat (a : Byte) : (flagByte (a.getLsbD 0)).toNat = a.toNat % 2 := by
  rw [byte_getLsbD_zero, flagByte_decide_eq_one_toNat (Nat.mod_lt _ Nat.two_pos)]

theorem byte_bit_seven_flag_toNat (a : Byte) : (flagByte (a.getLsbD 7)).toNat = a.toNat / 128 := by
  rw [byte_getLsbD_seven, flagByte_decide_eq_one_toNat (Nat.div_lt_of_lt_mul a.isLt)]

end Sys2Proof.Machine

namespace Sys2Proof.Proofs

open Sys2Proof Sys2Proof.Machine

/-- Settles O45: the ALU passes its second input and has no flag. -/
theorem loadsWriteVx : Obligations.LoadsWriteVx := fun _x _y _kk _s =>
  ⟨⟨_, rfl, State.aluStep_unflagged rfl⟩,
    ⟨_, rfl, State.aluStep_unflagged rfl⟩⟩

/-- Settles O46: the ALU's addition without a flag is that of bytes. -/
theorem addByteWrapsWithoutFlag : Obligations.AddByteWrapsWithoutFlag := fun _x _kk _s =>
  ⟨_, rfl, (congrArg BitVec.toNat (State.aluStep_reg_dest_of_no_flag rfl)).trans (BitVec.toNat_add ..),
    State.aluStep_sameButRegs_of_no_flag rfl⟩

/-- Settles O47: the ALU's three bitwise operations have no flag. -/
theorem logicOperations : Obligations.LogicOperations := fun _x _y _s =>
  ⟨⟨_, rfl, State.aluStep_unflagged rfl⟩,
    ⟨_, rfl, State.aluStep_unflagged rfl⟩,
    ⟨_, rfl, State.aluStep_unflagged rfl⟩⟩

/-- Settles O48: the flag is the carry out of the sum of the old operands. -/
theorem addSetsCarry : Obligations.AddSetsCarry := fun _x _y _s =>
  ⟨_, rfl, State.aluStep_flagged rfl (BitVec.toNat_add ..) (flagByte_decide_toNat _)⟩

/-- Settles O49: SUB and SUBN are the same difference with the operands exchanged. -/
theorem subtractionsSetFlag : Obligations.SubtractionsSetFlag := fun _x _y _s =>
  ⟨⟨_, rfl, State.aluStep_flagged rfl (byte_sub_toNat_mod ..) (flagByte_decide_toNat _)⟩,
    ⟨_, rfl, State.aluStep_flagged rfl (byte_sub_toNat_mod ..) (flagByte_decide_toNat _)⟩⟩

/-- Settles O50: the flag is the low bit of the old V[x] for SHR and its high bit for SHL. -/
theorem shiftsSetFlag : Obligations.ShiftsSetFlag := fun _x _y _s =>
  ⟨⟨_, rfl, State.aluStep_flagged rfl (byte_shr_toNat _) (byte_bit_zero_flag_toNat _)⟩,
    ⟨_, rfl, State.aluStep_flagged rfl (byte_shl_toNat _) (byte_bit_seven_flag_toNat _)⟩⟩

/-- Settles O51: RND writes the masked answer as one register, and a mask of 0 leaves no bit of it. -/
theorem rndMasksTheRandomByte : Obligations.RndMasksTheRandomByte := by
  intro x kk s
  have hx : (s.rndWith (Config.rngByte s.draws) x kk).drawn.reg x = Config.rngByte s.draws &&& kk :=
    State.setReg_reg_same ..
  exact ⟨_, rfl, hx, fun hk => by rw [hx, hk, BitVec.and_zero], rfl, (s.sameButRegs_setReg x _).drawn⟩

end Sys2Proof.Proofs
end

section
/-! PROOF. The index register and memory instructions (44_index_memory.md).
Each is read by its equation: rfl for a write of I, `exec_ldBVx_ok`, `exec_ldMemIVx_ok` and `exec_ldVxMemI_ok` for a block in
range. The two that store are one block write, whose frame is stated once. -/

namespace Sys2Proof.Machine

/-! ### Writes of I (R200 to R202) -/

theorem State.sameButI_withI (s : State) (a : Word) : s.SameButI { s with I := a } :=
  ⟨fun _ _ => rfl, rfl, ⟨rfl, rfl⟩, ⟨rfl, rfl⟩, fun _ => rfl, ⟨rfl, rfl, rfl⟩⟩

/-- The sum of ADD I, reduced to 12 bits, fits the 16 bits of I. -/
theorem word_ofNat_mod_4096_toNat (n : Nat) : (BitVec.ofNat 16 (n % 4096)).toNat = n % 4096 :=
  (BitVec.toNat_ofNat ..).trans (Nat.mod_eq_of_lt (Nat.lt_trans (Nat.mod_lt n (by decide)) (by decide)))

/-! ### Blocks stored at I (R203, R204) -/

/-- A block write touches the bytes of its block and nothing else. -/
theorem State.sameButBytes_setFrom {s : State} (hm : Memory.wf s.mem = true) {b : Nat} {vs : List Byte}
    (h : b + vs.length ≤ Config.memSize) : s.SameButBytes b vs.length { s with mem := Memory.setFrom s.mem b vs } :=
  ⟨fun _ _ => rfl, rfl, rfl, ⟨rfl, rfl⟩, ⟨rfl, rfl⟩, ⟨rfl, rfl, rfl⟩, fun _ => Memory.byte_setFrom_outside hm h⟩

/-- A digit of a byte is at most that byte, so it is a byte itself. -/
theorem byte_ofNat_toNat_of_le {n : Nat} {v : Byte} (h : n ≤ v.toNat) : (BitVec.ofNat 8 n).toNat = n :=
  (BitVec.toNat_ofNat ..).trans (Nat.mod_eq_of_lt (Nat.lt_of_le_of_lt h v.isLt))

/-- The number at `b + i`, where `ds` holds it at place `i` and it is no greater than some byte. -/
theorem Memory.byte_setFrom_toNat {m : Memory} (hm : Memory.wf m = true) {b i n : Nat} {ds : List Byte} {v : Byte}
    (h : b + ds.length ≤ Config.memSize) (hi : ds[i]? = some (BitVec.ofNat 8 n)) (hn : n ≤ v.toNat) :
    (Memory.byte (Memory.setFrom m b ds) (b + i)).toNat = n := by
  rw [Memory.byte_setFrom_block hm h hi, byte_ofNat_toNat_of_le hn]

/-! ### Registers loaded from I (R205) -/

theorem State.setRegsFrom0_reg_of_getElem? {bs : List Byte} {z : Nibble} {v : Byte} (h : bs[z.toNat]? = some v) (s : State) :
    (s.setRegsFrom0 bs).reg z = v := by
  rw [State.setRegsFrom0_reg, h, Option.getD_some]

theorem State.setRegsFrom0_reg_of_length_le {bs : List Byte} {z : Nibble} (h : bs.length ≤ z.toNat) (s : State) :
    (s.setRegsFrom0 bs).reg z = s.reg z := by
  rw [State.setRegsFrom0_reg, List.getElem?_eq_none h, Option.getD_none]

/-- Byte `i` of a block that was read from `b` upwards. -/
theorem Memory.getElem?_map_byte_range' (m : Memory) {b n i : Nat} (h : i < n) :
    ((List.range' b n).map (Memory.byte m))[i]? = some (Memory.byte m (b + i)) := by
  rw [List.getElem?_map, List.getElem?_range' h, Nat.one_mul, Option.map_some]

end Sys2Proof.Machine

namespace Sys2Proof.Proofs

open Sys2Proof Sys2Proof.Machine

/-- Settles O53: the store writes the three digits as one block. -/
theorem ldBStoresTheDigits : Obligations.LdBStoresTheDigits := by
  intro x s hm hI
  have hblock : s.base + (bcdDigits (s.reg x)).length ≤ Config.memSize := hI
  exact ⟨_, exec_ldBVx_ok hI,
    Memory.byte_setFrom_toNat hm (i := 0) hblock rfl (Nat.div_le_self ..),
    Memory.byte_setFrom_toNat hm (i := 1) hblock rfl ((Nat.mod_le ..).trans (Nat.div_le_self ..)),
    Memory.byte_setFrom_toNat hm (i := 2) hblock rfl (Nat.mod_le ..),
    State.sameButBytes_setFrom hm hblock⟩

/-- Settles O54: the store writes V0 to V[x] as one block of x + 1 bytes. -/
theorem storeRegistersAtI : Obligations.StoreRegistersAtI := by
  intro x s hm hI
  have hframe := State.sameButBytes_setFrom hm (b := s.base) (vs := s.regsUpTo x) (by rwa [State.regsUpTo_length])
  rw [State.regsUpTo_length] at hframe
  exact ⟨_, exec_ldMemIVx_ok hI, fun k hk => State.byte_setFrom_regsUpTo hm hI hk, hframe⟩

/-- Settles O55: the load writes the x + 1 bytes it reads to the registers up to V[x]. -/
theorem loadRegistersFromI : Obligations.LoadRegistersFromI := by
  intro x s hI
  refine ⟨_, exec_ldVxMemI_ok hI, fun k hk => ?_, fun k hk => ?_, rfl, rfl, ⟨rfl, rfl⟩, ⟨rfl, rfl⟩, fun _ => rfl,
    ⟨rfl, rfl, rfl⟩⟩
  · exact State.setRegsFrom0_reg_of_getElem? (Memory.getElem?_map_byte_range' s.mem (Nat.lt_succ_of_le hk)) s
  · exact State.setRegsFrom0_reg_of_length_le (by rwa [List.length_map, List.length_range']) s

/-- Settles O52: each of the three answers the state with another I. -/
theorem indexRegisterInstructions : Obligations.IndexRegisterInstructions := fun _x nnn s =>
  ⟨⟨_, rfl, addrWord_toNat nnn, s.sameButI_withI _⟩,
    ⟨_, rfl, word_ofNat_mod_4096_toNat _, s.sameButI_withI _⟩,
    ⟨_, rfl, addrWord_toNat _, s.sameButI_withI _⟩⟩

end Sys2Proof.Proofs
end

section
/-! PROOF. The display, timer and key-wait instructions (45_timers_input_display.md).
DRW is read by `exec_drw_ok` and the end of a key wait by `stepWith_waitKey_keyPress`; CLS, the timer loads and LD Vx, K each
answer the state with one element written, by rfl. -/

namespace Sys2Proof.Machine

/-! ### DRW (R221) -/

/-- The bytes read from `b` upwards, by their offsets from `b`. -/
theorem Memory.map_byte_range'_eq (m : Memory) (b n : Nat) :
    (List.range' b n).map (Memory.byte m) = (List.range n).map fun k => Memory.byte m (b + k) := by
  rw [List.range'_eq_map_range, List.map_map]
  rfl

theorem flagByte_toNat (f : Bool) : (flagByte f).toNat = if f = true then 1 else 0 := by
  cases f <;> rfl

theorem State.drawWith_flag_toNat (s : State) (c : Bool) (cx cy : Byte) (rows : List Byte) :
    ((s.drawWith c cx cy rows).reg 0xF#4).toNat = if c = true then 1 else 0 :=
  (congrArg BitVec.toNat (State.setFlag_reg_flag ..)).trans (flagByte_toNat c)

theorem State.sameRegsBut_drawWith (s : State) (c : Bool) (cx cy : Byte) (rows : List Byte) :
    s.SameRegsBut [0xF#4] (s.drawWith c cx cy rows) :=
  fun _ hz => State.setFlag_reg_other _ _ _ (List.ne_of_not_mem_cons hz)

/-! ### The end of a key wait (R224) -/

theorem State.setReg_keyByte_toNat (s : State) (x k : Nibble) : ((s.setReg x (keyByte k)).reg x).toNat = k.toNat := by
  rw [State.setReg_reg_same, keyByte_toNat]

end Sys2Proof.Machine

namespace Sys2Proof.Proofs

open Sys2Proof Sys2Proof.Machine

/-- Settles O57: in range DRW sends the block it reads, and the display's answer goes to VF alone. -/
theorem drwSendsTheSprite : Obligations.DrwSendsTheSprite := by
  intro x y n s h rows
  have hexec : exec (.drw x y n) s =
      .next (s.drawWith (Config.blitCollided s.draws (s.reg x) (s.reg y) rows) (s.reg x) (s.reg y) rows).drawn := by
    rw [exec_drw_ok h, Memory.map_byte_range'_eq]
    rfl
  exact ⟨_, hexec, rfl, s.drawWith_flag_toNat .., s.sameRegsBut_drawWith _ _ _ _, rfl, rfl, ⟨rfl, rfl⟩, ⟨rfl, rfl⟩,
    fun _ => rfl, rfl, rfl⟩

/-- Settles O14: in WaitKey a key press writes one register and the control state, in Ready it only uses up the move. -/
theorem keyPressEndsTheWaitOnly : Obligations.KeyPressEndsTheWaitOnly := by
  refine fun p s k hm => ⟨fun x hw => ?_, fun hr => ⟨_, stepWith_ready_keyPress p hr hm, rfl⟩⟩
  exact ⟨_, stepWith_waitKey_keyPress p hw hm, s.dropMove.setReg_keyByte_toNat x k, rfl,
    fun _ hz => State.setReg_reg_other _ _ _ _ (List.ne_of_not_mem_cons hz), rfl, rfl, ⟨rfl, rfl⟩, ⟨rfl, rfl⟩,
    fun _ => rfl, rfl, rfl⟩

/-- Settles O56: the answer is the state with one more request sent. -/
theorem clsRequestsClear : Obligations.ClsRequestsClear :=
  fun _s => ⟨_, rfl, rfl, fun _ _ => rfl, rfl, rfl, ⟨rfl, rfl⟩, ⟨rfl, rfl⟩, fun _ => rfl, rfl, rfl⟩

/-- Settles O58: the read of DT writes one register, the other two one timer each. -/
theorem timerLoads : Obligations.TimerLoads := fun x s =>
  ⟨⟨_, rfl, State.setReg_reg_same x s.DT s, s.sameButRegs_setReg x s.DT⟩,
    ⟨_, rfl, rfl, rfl, fun _ _ => rfl, rfl, rfl, ⟨rfl, rfl⟩, fun _ => rfl, ⟨rfl, rfl, rfl⟩⟩,
    ⟨_, rfl, rfl, rfl, fun _ _ => rfl, rfl, rfl, ⟨rfl, rfl⟩, fun _ => rfl, ⟨rfl, rfl, rfl⟩⟩⟩

/-- Settles O59: the answer is the state with another control state. -/
theorem ldKEntersTheWait : Obligations.LdKEntersTheWait :=
  fun _x _s => ⟨_, rfl, rfl, fun _ _ => rfl, rfl, rfl, ⟨rfl, rfl⟩, ⟨rfl, rfl⟩, fun _ => rfl, rfl, rfl⟩

end Sys2Proof.Proofs
end

section
/-! PROOF. Exceptions (60_exceptions.md): which faults are taken and what their records name, the bounds of the stack,
INVALID words, SYS and the tick.
`faultOf_eq_some` says once which kinds an instruction can take, and `cycle_faulted` and `turn_of_faulted` say where a
Faulted machine comes from; each statement about a fault reads its record through them. -/

namespace Sys2Proof.Machine

open Sys2Proof.Claims

/-! ### The fault of an instruction (R250 to R256) -/

/-- The faults an instruction can take, each with its cause as far as the stack and the opcode tell it. -/
theorem faultOf_eq_some {i : Instr} {s : State} {k : FaultKind} (h : faultOf i s = some k) :
    (k = .unsupportedOpcode ∧ i.tag = .sys) ∨ (k = .stackOverflow 16 ∧ s.SP.val = 16 ∧ i.tag = .call) ∨
      (k = .stackUnderflow 0 ∧ s.SP.val = 0 ∧ i = .ret) ∨ (∃ b, k = .keyRangeFault b) ∨ ∃ a, k = .addressFault a := by
  cases i with
  | sys nnn => exact .inl ⟨(Option.some.inj h).symm, rfl⟩
  | call nnn =>
    obtain ⟨hsp, hk⟩ := Option.ite_none_right_eq_some.1 h
    exact .inr (.inl ⟨(Option.some.inj hk).symm, hsp, rfl⟩)
  | ret =>
    obtain ⟨hsp, hk⟩ := Option.ite_none_right_eq_some.1 h
    exact .inr (.inr (.inl ⟨(Option.some.inj hk).symm, hsp, rfl⟩))
  | skp | sknp =>
    obtain ⟨-, hk⟩ := Option.ite_none_right_eq_some.1 h
    exact .inr (.inr (.inr (.inl ⟨_, (Option.some.inj hk).symm⟩)))
  | drw | ldBVx | ldMemIVx | ldVxMemI =>
    obtain ⟨-, hk⟩ := Option.ite_none_right_eq_some.1 h
    exact .inr (.inr (.inr (.inr ⟨_, (Option.some.inj hk).symm⟩)))
  | _ => cases h

theorem State.fsm_ne_faulted {s : State} (hr : s.running = true) (r : FaultRecord) : s.fsm ≠ .faulted r := by
  intro hf
  simp [State.running, hf] at hr

theorem complete_running {s : State} (i : Instr) (hr : s.running = true) : (complete i s).running = true := by
  cases i with
  | ldVxK x => rfl
  | _ => simpa only [State.running, complete_fsm] using hr

/-- An instruction takes only the fault that `faultOf` names, with the record of R258. -/
theorem effect_faulted {i : Instr} {s : State} {r : FaultRecord} (hr : s.running = true)
    (hf : (effect i s).fsm = .faulted r) :
    ∃ k, faultOf i s = some k ∧ r = ⟨k, s.pc - 2#16, some (encode i)⟩ := by
  cases hk : faultOf i s with
  | some k =>
    rw [effect_of_fault hk, State.raise_fsm] at hf
    exact ⟨k, rfl, (Fsm.faulted.inj hf).symm⟩
  | none =>
    rw [effect_of_none hk] at hf
    exact absurd hf (State.fsm_ne_faulted (complete_running i hr) r)

/-! ### The fault of a step (R254, R258) -/

/-- pc has advanced once, so the instruction's address is the pc before the advance. -/
theorem State.advance_instrAddr (s : State) : s.advance.instrAddr = s.pc :=
  BitVec.add_sub_cancel s.pc 2#16

theorem execInvalid_faulted {p : Config.InvalidPolicy} {op : Word} {s : State} {r : FaultRecord}
    (hr : s.running = true) (hf : (s.execInvalid p op).fsm = .faulted r) : r = ⟨.decodeMiss, s.instrAddr, some op⟩ := by
  cases p with
  | fatal => exact (Fsm.faulted.inj hf).symm
  | skip => exact absurd hf (State.fsm_ne_faulted hr r)

/-- The faults of a step of R101: the fetch's own, without an opcode, or DecodeMiss or the fault of an instruction, with the
fetched word. -/
theorem cycle_faulted {p : Config.InvalidPolicy} {s t : State} {r : FaultRecord} (hr : s.fsm = .ready)
    (h : cycle p s = .next t) (hf : t.fsm = .faulted r) :
    (∃ a, fetch s.mem s.pc = .error a ∧ r = ⟨.addressFault a, s.pc, none⟩) ∨
      ∃ op k, fetch s.mem s.pc = .ok op ∧ r = ⟨k, s.pc, some op⟩ ∧
        (k = .decodeMiss ∨ ∃ i, faultOf i s.advance = some k) := by
  have hrun : s.advance.running = true := State.running_iff.2 (.inl hr)
  obtain ⟨a, hfetch, rfl⟩ | ⟨op, hfetch, -, rfl⟩ | ⟨op, i, hfetch, hd, rfl⟩ := cycle_cases h
  · exact .inl ⟨a, hfetch, (Fsm.faulted.inj hf).symm⟩
  · have hrec := execInvalid_faulted hrun hf
    rw [State.advance_instrAddr] at hrec
    exact .inr ⟨op, _, hfetch, hrec, .inl rfl⟩
  · obtain ⟨k, hk, hrec⟩ := effect_faulted hrun hf
    rw [(encode_of_decodeWord hd).1, ← State.instrAddr, State.advance_instrAddr] at hrec
    exact .inr ⟨op, k, hfetch, hrec, .inr ⟨i, hk⟩⟩

/-- Only a step in Ready takes a fault: a host event and a turn in WaitKey never do. -/
theorem turn_of_faulted {p : Config.InvalidPolicy} {s t : State} {r : FaultRecord} (h : stepWith p s = .next t)
    (hf : t.fsm = .faulted r) : s.fsm = .ready ∧ s.nextMove = .step ∧ cycle p s.dropMove = .next t := by
  obtain hr | ⟨x, hw⟩ := State.running_iff.1 (stepWith_cases h).1
  · by_cases hm : s.nextMove = .step
    · exact ⟨hr, hm, (stepWith_turn p hr hm).symm.trans h⟩
    · exact Fsm.noConfusion (hf.symm.trans (stepWith_fsm_of_event hr hm h))
  · obtain ⟨_, _, _, hready⟩ | ⟨_, hwait⟩ := stepWith_fsm_of_waitKey hw h
    · exact Fsm.noConfusion (hf.symm.trans hready)
    · exact Fsm.noConfusion (hf.symm.trans hwait)

/-- The codes of R250 without LoadFault's, which no step takes. -/
theorem FaultKind.code_range (k : FaultKind) : 1 ≤ k.code ∧ k.code ≤ 7 := by
  cases k <;> simp [FaultKind.code]

/-! ### CALLs in a row (R252) -/

theorem exec_call_next (n : Addr) {s : State} (h : s.SP.val < 16) :
    ∃ u, exec (.call n) s = .next u ∧ u.SP.val = s.SP.val + 1 ∧ u.fsm = s.fsm :=
  ⟨_, exec_call_room h, rfl, rfl⟩

theorem callChain_of_room (ns : List Addr) {s : State} (h : s.SP.val + ns.length ≤ 16) :
    ∃ t, callChain ns s = .next t ∧ t.SP.val = s.SP.val + ns.length ∧ t.fsm = s.fsm := by
  induction ns generalizing s with
  | nil => exact ⟨s, rfl, rfl, rfl⟩
  | cons n ns ih =>
    rw [List.length_cons] at h ⊢
    obtain ⟨u, hu, husp, hufsm⟩ := exec_call_next n (s := s) (by omega)
    obtain ⟨t, hchain, hsp, hfsm⟩ := ih (s := u) (by omega)
    rw [callChain, hu]
    exact ⟨t, hchain, by omega, hfsm.trans hufsm⟩

theorem exec_call_full_faulted (n : Addr) {s : State} (h : s.SP.val = 16) :
    ∃ u r, exec (.call n) s = .next u ∧ u.fsm = .faulted r ∧ r.kind = .stackOverflow 16 :=
  ⟨_, _, exec_call_full h, rfl, rfl⟩

/-! ### Timers (R263) -/

theorem timerDown_toNat (b : Byte) : (timerDown b).toNat = b.toNat - 1 := by
  unfold timerDown
  split
  case isTrue h => rw [h]; rfl
  case isFalse h =>
    have hpos : 1#8 ≤ b := by bv_omega
    exact BitVec.toNat_sub_of_le hpos

end Sys2Proof.Machine

namespace Sys2Proof.Proofs

open Sys2Proof Sys2Proof.Machine

/-- Settles O23: `faultOf` decides between the fault and the completion, which leaves the machine running. -/
theorem faultsExactlyAsListed : Obligations.FaultsExactlyAsListed := by
  refine fun i s hr => ⟨effect i s, exec_eq i s, ?_⟩
  cases hf : faultOf i s with
  | some k =>
    rw [effect_of_fault hf]
    exact s.tookFault_raise k i
  | none =>
    rw [effect_of_none hf]
    exact complete_running i hr

/-- Settles O24: a fetch, an INVALID word and an instruction each take a fault of another kind. -/
theorem registerIndexFaultIsUnreachable : Obligations.RegisterIndexFaultIsUnreachable := by
  intro p s t r h hf n hk
  obtain ⟨hr, -, hcycle⟩ := turn_of_faulted h hf
  obtain ⟨a, -, rfl⟩ | ⟨op, k, -, rfl, rfl | ⟨i, hi⟩⟩ := cycle_faulted (s := s.dropMove) hr hcycle hf
  · cases hk
  · cases hk
  · obtain ⟨rfl, -⟩ | ⟨rfl, -⟩ | ⟨rfl, -⟩ | ⟨_, rfl⟩ | ⟨_, rfl⟩ := faultOf_eq_some hi <;> cases hk

/-- Settles O25: the record is that of the fetch, or it names the fetched word. -/
theorem faultRecordNamesTheInstruction : Obligations.FaultRecordNamesTheInstruction := by
  intro p s t r h hf
  obtain ⟨hr, hm, hcycle⟩ := turn_of_faulted h hf
  obtain ⟨hlo, hhi⟩ := r.kind.code_range
  obtain ⟨a, hfetch, rfl⟩ | ⟨op, k, hfetch, rfl, -⟩ := cycle_faulted (s := s.dropMove) hr hcycle hf
  · rw [show fetch s.mem s.pc = .error a from hfetch]
    exact ⟨hr, hm, rfl, hlo, hhi, nofun, fun _ ha => ⟨rfl, congrArg _ (Except.error.inj ha)⟩⟩
  · rw [show fetch s.mem s.pc = .ok op from hfetch]
    exact ⟨hr, hm, rfl, hlo, hhi, fun _ hop => congrArg some (Except.ok.inj hop), nofun⟩

/-- Settles O39: the CALLs by induction on their number, the last clause by the list of faults. -/
theorem sixteenCallsThenStackFault : Obligations.SixteenCallsThenStackFault := by
  refine ⟨fun ns s => callChain_of_room ns, fun ns n s h0 hlen => ?_, fun n s => exec_call_full_faulted n,
    fun s h => ⟨_, _, exec_ret_empty h, rfl, rfl⟩, fun i s t r n hr h hf => ?_⟩
  · obtain ⟨t, hchain, hsp, -⟩ := callChain_of_room ns (s := s) (by omega)
    obtain ⟨u, r, hu⟩ := exec_call_full_faulted n (s := t) (by omega)
    exact ⟨t, u, r, hchain, hu⟩
  · rw [exec_eq] at h
    cases h
    obtain ⟨k, hk, rfl⟩ := effect_faulted hr hf
    obtain ⟨rfl, -⟩ | ⟨rfl, hcause⟩ | ⟨rfl, hcause⟩ | ⟨_, rfl⟩ | ⟨_, rfl⟩ := faultOf_eq_some hk
    · exact ⟨nofun, nofun⟩
    · exact ⟨fun e => ⟨(FaultKind.stackOverflow.inj e).symm, hcause⟩, nofun⟩
    · exact ⟨nofun, fun e => ⟨(FaultKind.stackUnderflow.inj e).symm, hcause⟩⟩
    · exact ⟨nofun, nofun⟩
    · exact ⟨nofun, nofun⟩

/-- Settles O11: both policies act on the state with pc advanced, whose instruction's address is the old pc. -/
theorem invalidWordFollowsThePolicy : Obligations.InvalidWordFollowsThePolicy := by
  intro s op hr hm hf hd
  have hstep (p : Config.InvalidPolicy) : stepWith p s = .next (s.dropMove.advance.execInvalid p op) :=
    (stepWith_turn p hr hm).trans (cycle_of_rejected (s := s.dropMove) p hf hd)
  have haddr : s.dropMove.advance.instrAddr = s.pc := s.dropMove.advance_instrAddr
  refine ⟨⟨_, hstep .fatal, ?_⟩, ⟨_, hstep .skip, rfl, fun _ _ => rfl, rfl, ⟨rfl, rfl⟩, ⟨rfl, rfl⟩, fun _ => rfl, hr,
    rfl, ?_⟩, rfl⟩
  · rw [State.execInvalid, State.takeFault_fsm, haddr]
  · rw [State.execInvalid, State.send_sent, haddr]
    rfl

/-- Settles O15: in Ready and in WaitKey alike the tick writes the two timers. -/
theorem tickCountsTimersDown : Obligations.TickCountsTimersDown := fun p s hr hm =>
  ⟨_, stepWith_tick p hr hm, timerDown_toNat s.DT, timerDown_toNat s.ST, fun _ _ => rfl, rfl, rfl, ⟨rfl, rfl⟩,
    fun _ => rfl, rfl, rfl, rfl⟩

/-- Settles O41: SYS answers the state that has taken the fault. -/
theorem sysTakesUnsupportedOpcode : Obligations.SysTakesUnsupportedOpcode :=
  fun _nnn _s => ⟨_, _, rfl, rfl, rfl⟩

end Sys2Proof.Proofs
end

section
/-! PROOF. Reset and launch (70_reset_and_hazards.md): the values of construction, the font image, and the state that a
launch answers.
`State.launch_started_iff` says once which programs start and in which state; `byte_loadFont` says what the font image
leaves at an address. -/

namespace Sys2Proof.Machine

/-! ### Construction (R280, R35) -/

theorem State.reset_reg (z : Nibble) : State.reset.reg z = 0#8 :=
  Vector.getElem_replicate z.isLt

theorem State.reset_slot (j : Fin 16) : State.reset.stack[j.val]'j.isLt = 0#16 :=
  Vector.getElem_replicate j.isLt

theorem State.reset_inv : State.reset.Inv :=
  ⟨Memory.wf_nil, fun _ => by decide⟩

/-! ### The font image (R281, D17) -/

/-- Where every pair for `a` carries `b`, the font image leaves `b` there, if it lists `a` or `b` stood there before. -/
theorem byte_loadFont {font : List (Addr × Byte)} {m : Memory} (hm : Memory.wf m = true) {a : Nat} {b : Byte}
    (hb : ∀ q ∈ font, q.1.toNat = a → q.2 = b) (h : Memory.byte m a = b ∨ ∃ q ∈ font, q.1.toNat = a) :
    Memory.byte (loadFont font m) a = b := by
  induction font generalizing m with
  | nil => exact h.resolve_right (by simp)
  | cons q font ih =>
    obtain ⟨hq, htail⟩ := List.forall_mem_cons.1 hb
    refine ih (Memory.wf_set hm q.1.isLt q.2) htail ?_
    rw [Memory.byte_set hm]
    by_cases hqa : q.1.toNat = a
    · exact .inl (by rw [if_pos hqa.symm, hq hqa])
    · rw [if_neg (Ne.symm hqa)]
      exact h.imp_right fun hmem => ((List.exists_mem_cons_iff ..).1 hmem).resolve_left hqa

theorem byte_loadFont_unlisted {font : List (Addr × Byte)} {m : Memory} (hm : Memory.wf m = true) {a : Nat}
    (h : ∀ q ∈ font, q.1.toNat ≠ a) : Memory.byte (loadFont font m) a = Memory.byte m a :=
  byte_loadFont hm (fun q hq e => absurd e (h q hq)) (.inl rfl)

/-! ### Launch (R281) -/

/-- The state a launch starts from, when the program fits. -/
def State.launched (s : State) (font : List (Addr × Byte)) (p : List Byte) : State :=
  { s with mem := Memory.setFrom (loadFont font s.mem) Config.loadBase p, pc := Config.entryPc, fsm := .ready }

theorem State.launch_fits {p : List Byte} (h : Config.loadBase + p.length ≤ Config.memSize)
    (font : List (Addr × Byte)) (s : State) : s.launch font p = .started (s.launched font p) := by
  simp only [State.launch, loadProgram_fits h, State.launched]

theorem State.launch_started_iff {s t : State} {font : List (Addr × Byte)} {p : List Byte} :
    s.launch font p = .started t ↔ Config.loadBase + p.length ≤ Config.memSize ∧ t = s.launched font p := by
  rcases Nat.lt_or_ge Config.memSize (Config.loadBase + p.length) with h | h
  · rw [State.launch_tooLong h]
    exact ⟨nofun, fun ⟨hfit, _⟩ => absurd hfit (Nat.not_le.2 h)⟩
  · rw [State.launch_fits h, Launched.started.injEq]
    exact ⟨fun e => ⟨h, e.symm⟩, fun ⟨_, e⟩ => e.symm⟩

/-- A launch keeps I, so from a running machine it keeps the range of I; its writes keep memory canonical. -/
theorem State.Inv.launch {s t : State} {font : List (Addr × Byte)} {p : List Byte} (hs : s.Inv) (hr : s.running = true)
    (h : s.launch font p = .started t) : t.Inv := by
  obtain ⟨hfit, rfl⟩ := State.launch_started_iff.1 h
  obtain ⟨hm, hI⟩ := hs
  exact ⟨Memory.wf_setFrom (loadFont_wf hm font) hfit, fun _ => hI hr⟩

end Sys2Proof.Machine

namespace Sys2Proof.Proofs

open Sys2Proof Sys2Proof.Machine

/-- Settles O21: the program is one block written over the font image, which was written over zero memory. -/
theorem launchState : Obligations.LaunchState := by
  intro font p hfit
  have hfont : Memory.wf (loadFont font State.reset.mem) = true := loadFont_wf Memory.wf_nil font
  refine ⟨_, State.launch_fits hfit font State.reset, rfl, State.reset_reg, rfl, rfl, rfl, rfl, rfl,
    fun i hi => Memory.byte_setFrom_block hfont hfit (List.getElem?_eq_getElem hi), fun a ha => ?_⟩
  have hout : Memory.byte (State.reset.launched font p).mem a = Memory.byte (loadFont font State.reset.mem) a :=
    Memory.byte_setFrom_outside hfont hfit ha
  rw [hout]
  exact ⟨byte_loadFont_unlisted Memory.wf_nil, fun b hlisted hb => byte_loadFont Memory.wf_nil hb (.inr hlisted)⟩

/-- Settles O18: construction is a running machine that meets the invariant, and a launch keeps it. -/
theorem constructionAndLaunchMeetTheInvariant : Obligations.ConstructionAndLaunchMeetTheInvariant :=
  ⟨State.reset_inv, fun _ _ _ => State.reset_inv.launch rfl⟩

/-- Settles O19: V and the stack are constant vectors, and the empty memory reads as 0 everywhere. -/
theorem constructionValues : Obligations.ConstructionValues :=
  ⟨State.reset_reg, rfl, rfl, rfl, State.reset_slot, rfl, rfl, Memory.byte_nil, rfl⟩

end Sys2Proof.Proofs
end
